-- ==== Sys2Proof/Word.lean ====
section
/-! DEFINITION. The word types of the cipi8 CORE: the widths of 00_scope.md R5 and the
instruction fields of R8 and R72.  Every value of this hardware is unsigned (R7). -/

namespace Sys2Proof

/-- A byte: a general register, a timer, a memory cell, the immediate `kk` (R5, R20, R28). -/
abbrev Byte := BitVec 8

/-- A 16-bit word: an instruction word, `pc`, `I`, a stack entry, the keypad sample
(R24, R26, R29, R31, R35, R70). -/
abbrev Word := BitVec 16

/-- The 12-bit immediate address `nnn = op[11:0]` (R8, R73). -/
abbrev Addr := BitVec 12

/-- A general register number: a 4-bit field, every value of which is valid (R20, R73). -/
abbrev Reg := Fin 16

/-- The row count `n` of a sprite, 0 to 15 (R73). -/
abbrev RowCount := Fin 16

/-- The number of the flag register `VF` (R5, R22). -/
abbrev flagReg : Reg := 15

end Sys2Proof
end

