-- ==== Sys2Proof/Syntax.lean ====
section
/-! DEFINITION. The instructions: one constructor per row of 30_encoding.md R74 (and of
spec/opcode_table.json), in the table's order.  The UNDEFINED words (R77) select no instruction and
have no constructor: the decoder answers them by a name of its own (`Decoded.undefinedWord`). -/

namespace Sys2Proof

/-- An instruction with its operand fields (R74).  Ignored bits (R76) are no operands. -/
inductive Instr where
  /-- `CLS`, 00E0 (R150). -/
  | cls
  /-- `RET`, 00EE (R110). -/
  | ret
  /-- `JP nnn`, 1nnn (R111). -/
  | jp (nnn : Addr)
  /-- `CALL nnn`, 2nnn (R112). -/
  | call (nnn : Addr)
  /-- `SE Vx, kk`, 3xkk (R114). -/
  | seByte (x : Reg) (kk : Byte)
  /-- `SNE Vx, kk`, 4xkk (R115). -/
  | sneByte (x : Reg) (kk : Byte)
  /-- `SE Vx, Vy`, 5xy0 (R116). -/
  | seReg (x y : Reg)
  /-- `LD Vx, kk`, 6xkk (R121). -/
  | ldByte (x : Reg) (kk : Byte)
  /-- `ADD Vx, kk`, 7xkk (R122). -/
  | addByte (x : Reg) (kk : Byte)
  /-- `LD Vx, Vy`, 8xy0 (R123). -/
  | ldReg (x y : Reg)
  /-- `OR Vx, Vy`, 8xy1 (R124). -/
  | orReg (x y : Reg)
  /-- `AND Vx, Vy`, 8xy2 (R125). -/
  | andReg (x y : Reg)
  /-- `XOR Vx, Vy`, 8xy3 (R126). -/
  | xorReg (x y : Reg)
  /-- `ADD Vx, Vy`, 8xy4 (R127). -/
  | addReg (x y : Reg)
  /-- `SUB Vx, Vy`, 8xy5 (R128). -/
  | subReg (x y : Reg)
  /-- `SHR Vx`, 8x06 (R129). -/
  | shr (x : Reg)
  /-- `SUBN Vx, Vy`, 8xy7 (R130). -/
  | subnReg (x y : Reg)
  /-- `SHL Vx`, 8x0E (R131). -/
  | shl (x : Reg)
  /-- `SNE Vx, Vy`, 9xy0 (R117). -/
  | sneReg (x y : Reg)
  /-- `LD I, nnn`, Annn (R140). -/
  | ldI (nnn : Addr)
  /-- `JP V0, nnn`, Bnnn (R118). -/
  | jpV0 (nnn : Addr)
  /-- `RND Vx, kk`, Cxkk (R132). -/
  | rnd (x : Reg) (kk : Byte)
  /-- `DRW Vx, Vy, n`, Dxyn (R152). -/
  | drw (x y : Reg) (n : RowCount)
  /-- `SKP Vx`, Ex9E (R160). -/
  | skp (x : Reg)
  /-- `SKNP Vx`, ExA1 (R161). -/
  | sknp (x : Reg)
  /-- `LD Vx, DT`, Fx07 (R162). -/
  | ldVxDt (x : Reg)
  /-- `LD Vx, K`, Fx0A (R163). -/
  | ldVxK (x : Reg)
  /-- `LD DT, Vx`, Fx15 (R164). -/
  | ldDtVx (x : Reg)
  /-- `LD ST, Vx`, Fx18 (R165). -/
  | ldStVx (x : Reg)
  /-- `ADD I, Vx`, Fx1E (R141). -/
  | addI (x : Reg)
  /-- `LD F, Vx`, Fx29 (R142). -/
  | ldF (x : Reg)
  /-- `LD B, Vx`, Fx33 (R143). -/
  | ldB (x : Reg)
  /-- `LD [I], Vx`, Fx55: the register dump (R145). -/
  | ldMemVx (x : Reg)
  /-- `LD Vx, [I]`, Fx65: the register load (R146). -/
  | ldVxMem (x : Reg)
  deriving DecidableEq, Repr

end Sys2Proof
end

