-- ==== Sys2Proof/Decode.lean ====
section
/-! DEFINITION. The decoder and the encoder.  The decoder is generated from the opcode map
`opcodeTable`, mask and match of every row of R74 (as D15 asks); the encoder is written from the
pattern column of the same rows.  The selector algorithm of R75 is written beside them
(`decodeBySelectors`); that it agrees with `decode` on every word is an obligation. -/

namespace Sys2Proof

/-! ### Bytes and fields of a word (R8, R52, R72) -/

/-- The high byte `w[15:8]`: the byte of an instruction word at the lower address (R52). -/
def highByte (w : Word) : Byte := w.extractLsb' 8 8

/-- The low byte `w[7:0]`: the byte of an instruction word at the higher address (R52). -/
def lowByte (w : Word) : Byte := w.extractLsb' 0 8

/-- `sel = op[15:12]`. -/
def selField (op : Word) : BitVec 4 := op.extractLsb' 12 4

/-- `x = op[11:8]`, a register number. -/
def xField (op : Word) : Reg := (op.extractLsb' 8 4).toFin

/-- `y = op[7:4]`, a register number. -/
def yField (op : Word) : Reg := (op.extractLsb' 4 4).toFin

/-- `n = op[3:0]`, a row count. -/
def nField (op : Word) : RowCount := (op.extractLsb' 0 4).toFin

/-- `kk = op[7:0]`, an immediate byte, or the secondary selector of `sel = 0xF`. -/
def kkField (op : Word) : Byte := op.extractLsb' 0 8

/-- `nnn = op[11:0]`, an immediate address. -/
def nnnField (op : Word) : Addr := op.extractLsb' 0 12

/-- `op[3:0]` as the secondary selector of `sel = 0x0, 0x8, 0xE` (R75). -/
def subField (op : Word) : BitVec 4 := op.extractLsb' 0 4

/-! ### The opcode map (R74, R76) -/

/-- One row of R74: a word `w` belongs to it exactly when `w &&& mask = fixed`; `ignored` are the
bits the decoder does not look at, `canonical` the canonical word with every operand field zero
(R76); `build` reads the operands. -/
structure OpcodeRow where
  mnemonic  : String
  mask      : Word
  fixed     : Word
  ignored   : Word
  canonical : Word
  build     : Word → Instr

/-- A word belongs to a row (R74). -/
def OpcodeRow.hit (r : OpcodeRow) (op : Word) : Bool := op &&& r.mask == r.fixed

/-- R74, rows 1 to 9. -/
def opcodeTableLow : List OpcodeRow := [
  ⟨"CLS",        0xF00F, 0x0000, 0x0FF0, 0x00E0, fun _ => .cls⟩,
  ⟨"RET",        0xF00F, 0x000E, 0x0FF0, 0x00EE, fun _ => .ret⟩,
  ⟨"JP_nnn",     0xF000, 0x1000, 0x0000, 0x1000, fun w => .jp (nnnField w)⟩,
  ⟨"CALL_nnn",   0xF000, 0x2000, 0x0000, 0x2000, fun w => .call (nnnField w)⟩,
  ⟨"SE_Vx__kk",  0xF000, 0x3000, 0x0000, 0x3000, fun w => .seByte (xField w) (kkField w)⟩,
  ⟨"SNE_Vx__kk", 0xF000, 0x4000, 0x0000, 0x4000, fun w => .sneByte (xField w) (kkField w)⟩,
  ⟨"SE_Vx__Vy",  0xF000, 0x5000, 0x000F, 0x5000, fun w => .seReg (xField w) (yField w)⟩,
  ⟨"LD_Vx__kk",  0xF000, 0x6000, 0x0000, 0x6000, fun w => .ldByte (xField w) (kkField w)⟩,
  ⟨"ADD_Vx__kk", 0xF000, 0x7000, 0x0000, 0x7000, fun w => .addByte (xField w) (kkField w)⟩]

/-- R74, rows 10 to 18: the register-register group. -/
def opcodeTableAlu : List OpcodeRow := [
  ⟨"LD_Vx__Vy",   0xF00F, 0x8000, 0x0000, 0x8000, fun w => .ldReg (xField w) (yField w)⟩,
  ⟨"OR_Vx__Vy",   0xF00F, 0x8001, 0x0000, 0x8001, fun w => .orReg (xField w) (yField w)⟩,
  ⟨"AND_Vx__Vy",  0xF00F, 0x8002, 0x0000, 0x8002, fun w => .andReg (xField w) (yField w)⟩,
  ⟨"XOR_Vx__Vy",  0xF00F, 0x8003, 0x0000, 0x8003, fun w => .xorReg (xField w) (yField w)⟩,
  ⟨"ADD_Vx__Vy",  0xF00F, 0x8004, 0x0000, 0x8004, fun w => .addReg (xField w) (yField w)⟩,
  ⟨"SUB_Vx__Vy",  0xF00F, 0x8005, 0x0000, 0x8005, fun w => .subReg (xField w) (yField w)⟩,
  ⟨"SHR_Vx",      0xF00F, 0x8006, 0x00F0, 0x8006, fun w => .shr (xField w)⟩,
  ⟨"SUBN_Vx__Vy", 0xF00F, 0x8007, 0x0000, 0x8007, fun w => .subnReg (xField w) (yField w)⟩,
  ⟨"SHL_Vx",      0xF00F, 0x800E, 0x00F0, 0x800E, fun w => .shl (xField w)⟩]

/-- R74, rows 19 to 25. -/
def opcodeTableMid : List OpcodeRow := [
  ⟨"SNE_Vx__Vy",    0xF000, 0x9000, 0x000F, 0x9000, fun w => .sneReg (xField w) (yField w)⟩,
  ⟨"LD_I__nnn",     0xF000, 0xA000, 0x0000, 0xA000, fun w => .ldI (nnnField w)⟩,
  ⟨"JP_V0__nnn",    0xF000, 0xB000, 0x0000, 0xB000, fun w => .jpV0 (nnnField w)⟩,
  ⟨"RND_Vx__kk",    0xF000, 0xC000, 0x0000, 0xC000, fun w => .rnd (xField w) (kkField w)⟩,
  ⟨"DRW_Vx__Vy__n", 0xF000, 0xD000, 0x0000, 0xD000,
    fun w => .drw (xField w) (yField w) (nField w)⟩,
  ⟨"SKP_Vx",        0xF00F, 0xE00E, 0x00F0, 0xE09E, fun w => .skp (xField w)⟩,
  ⟨"SKNP_Vx",       0xF00F, 0xE001, 0x00F0, 0xE0A1, fun w => .sknp (xField w)⟩]

/-- R74, rows 26 to 34. -/
def opcodeTableHigh : List OpcodeRow := [
  ⟨"LD_Vx__DT",  0xF0FF, 0xF007, 0x0000, 0xF007, fun w => .ldVxDt (xField w)⟩,
  ⟨"LD_Vx__K",   0xF0FF, 0xF00A, 0x0000, 0xF00A, fun w => .ldVxK (xField w)⟩,
  ⟨"LD_DT__Vx",  0xF0FF, 0xF015, 0x0000, 0xF015, fun w => .ldDtVx (xField w)⟩,
  ⟨"LD_ST__Vx",  0xF0FF, 0xF018, 0x0000, 0xF018, fun w => .ldStVx (xField w)⟩,
  ⟨"ADD_I__Vx",  0xF0FF, 0xF01E, 0x0000, 0xF01E, fun w => .addI (xField w)⟩,
  ⟨"LD_F__Vx",   0xF0FF, 0xF029, 0x0000, 0xF029, fun w => .ldF (xField w)⟩,
  ⟨"LD_B__Vx",   0xF0FF, 0xF033, 0x0000, 0xF033, fun w => .ldB (xField w)⟩,
  ⟨"LD__I___Vx", 0xF0FF, 0xF055, 0x0000, 0xF055, fun w => .ldMemVx (xField w)⟩,
  ⟨"LD_Vx___I",  0xF0FF, 0xF065, 0x0000, 0xF065, fun w => .ldVxMem (xField w)⟩]

/-- The complete instruction list of R74 (log 4), 34 rows in the table's order. -/
def opcodeTable : List OpcodeRow :=
  opcodeTableLow ++ opcodeTableAlu ++ opcodeTableMid ++ opcodeTableHigh

/-! ### Decoding -/

/-- The outcome of decoding a word: one of the 34 instructions, or UNDEFINED by name (R75). -/
inductive Decoded where
  | instr (i : Instr)
  /-- The word selects no instruction (R77, log 9); the cycle treats it as a no-op (R95). -/
  | undefinedWord
  deriving DecidableEq, Repr

/-- Decode a 16-bit word: a total, pure function of the word (R75, R83, R93), generated from the
opcode map. -/
def decode (op : Word) : Decoded :=
  match opcodeTable.find? (fun r => r.hit op) with
  | some r => .instr (r.build op)
  | none => .undefinedWord

/-- Why a byte sequence decodes to no instruction. -/
inductive DecodeReject where
  /-- The two bytes are an undefined word (R77). -/
  | undefinedWord
  /-- Fewer than the two bytes every instruction has (R70). -/
  | truncated
  deriving DecidableEq, Repr

/-- Decode the instruction at the front of a byte sequence, the high byte first (R52, R70), and
give the bytes after it; reject by name otherwise. -/
def decodeBytes : List Byte → Except DecodeReject (Instr × List Byte)
  | hi :: lo :: rest =>
    match decode (hi ++ lo) with
    | .instr i => .ok (i, rest)
    | .undefinedWord => .error .undefinedWord
  | [_] => .error .truncated
  | [] => .error .truncated

/-- The instruction the decoder reads from a row of spec/opcode_table.json: bit 0 of `w` is bit 0
of the instruction word, bits at or above `nbits` are zero, and the word is laid out in memory
high byte first (R52). -/
def decodeTableWord (nbits w : Nat) : Option Instr :=
  let op : Word := BitVec.ofNat 16 (w % 2 ^ nbits)
  match decodeBytes [highByte op, lowByte op] with
  | .ok (i, _) => some i
  | .error _ => none

/-- The decode of R75, as the rule writes it: primary selector, then the low nibble for
`sel = 0x0, 0x8, 0xE` and the low byte for `sel = 0xF`. -/
def decodeBySelectors (op : Word) : Decoded :=
  match selField op with
  | 0x0#4 =>
    match subField op with
    | 0x0#4 => .instr .cls
    | 0xE#4 => .instr .ret
    | _ => .undefinedWord
  | 0x1#4 => .instr (.jp (nnnField op))
  | 0x2#4 => .instr (.call (nnnField op))
  | 0x3#4 => .instr (.seByte (xField op) (kkField op))
  | 0x4#4 => .instr (.sneByte (xField op) (kkField op))
  | 0x5#4 => .instr (.seReg (xField op) (yField op))
  | 0x6#4 => .instr (.ldByte (xField op) (kkField op))
  | 0x7#4 => .instr (.addByte (xField op) (kkField op))
  | 0x8#4 =>
    match subField op with
    | 0x0#4 => .instr (.ldReg (xField op) (yField op))
    | 0x1#4 => .instr (.orReg (xField op) (yField op))
    | 0x2#4 => .instr (.andReg (xField op) (yField op))
    | 0x3#4 => .instr (.xorReg (xField op) (yField op))
    | 0x4#4 => .instr (.addReg (xField op) (yField op))
    | 0x5#4 => .instr (.subReg (xField op) (yField op))
    | 0x6#4 => .instr (.shr (xField op))
    | 0x7#4 => .instr (.subnReg (xField op) (yField op))
    | 0xE#4 => .instr (.shl (xField op))
    | _ => .undefinedWord
  | 0x9#4 => .instr (.sneReg (xField op) (yField op))
  | 0xA#4 => .instr (.ldI (nnnField op))
  | 0xB#4 => .instr (.jpV0 (nnnField op))
  | 0xC#4 => .instr (.rnd (xField op) (kkField op))
  | 0xD#4 => .instr (.drw (xField op) (yField op) (nField op))
  | 0xE#4 =>
    match subField op with
    | 0xE#4 => .instr (.skp (xField op))
    | 0x1#4 => .instr (.sknp (xField op))
    | _ => .undefinedWord
  | _ => -- the one selector left, 0xF
    match kkField op with
    | 0x07#8 => .instr (.ldVxDt (xField op))
    | 0x0A#8 => .instr (.ldVxK (xField op))
    | 0x15#8 => .instr (.ldDtVx (xField op))
    | 0x18#8 => .instr (.ldStVx (xField op))
    | 0x1E#8 => .instr (.addI (xField op))
    | 0x29#8 => .instr (.ldF (xField op))
    | 0x33#8 => .instr (.ldB (xField op))
    | 0x55#8 => .instr (.ldMemVx (xField op))
    | 0x65#8 => .instr (.ldVxMem (xField op))
    | _ => .undefinedWord

/-! ### Encoding: the canonical word (R71, R76, R81) -/

/-- Format `A`: selector, address. -/
def formatA (sel : BitVec 4) (nnn : Addr) : Word := sel ++ nnn

/-- Format `K` (and `X`, whose low byte is fixed): selector, register, byte. -/
def formatK (sel : BitVec 4) (x : Reg) (kk : Byte) : Word := sel ++ BitVec.ofFin (w := 4) x ++ kk

/-- Formats `R` and `D`: selector, register, register, low nibble. -/
def formatR (sel : BitVec 4) (x y : Reg) (low : BitVec 4) : Word :=
  sel ++ BitVec.ofFin (w := 4) x ++ BitVec.ofFin (w := 4) y ++ low

/-- The canonical encoding of an instruction (R74 pattern column, R76). -/
def encode : Instr → Word
  | .cls => 0x00E0
  | .ret => 0x00EE
  | .jp nnn => formatA 0x1 nnn
  | .call nnn => formatA 0x2 nnn
  | .seByte x kk => formatK 0x3 x kk
  | .sneByte x kk => formatK 0x4 x kk
  | .seReg x y => formatR 0x5 x y 0x0
  | .ldByte x kk => formatK 0x6 x kk
  | .addByte x kk => formatK 0x7 x kk
  | .ldReg x y => formatR 0x8 x y 0x0
  | .orReg x y => formatR 0x8 x y 0x1
  | .andReg x y => formatR 0x8 x y 0x2
  | .xorReg x y => formatR 0x8 x y 0x3
  | .addReg x y => formatR 0x8 x y 0x4
  | .subReg x y => formatR 0x8 x y 0x5
  | .shr x => formatR 0x8 x 0 0x6
  | .subnReg x y => formatR 0x8 x y 0x7
  | .shl x => formatR 0x8 x 0 0xE
  | .sneReg x y => formatR 0x9 x y 0x0
  | .ldI nnn => formatA 0xA nnn
  | .jpV0 nnn => formatA 0xB nnn
  | .rnd x kk => formatK 0xC x kk
  | .drw x y n => formatR 0xD x y (BitVec.ofFin (w := 4) n)
  | .skp x => formatK 0xE x 0x9E
  | .sknp x => formatK 0xE x 0xA1
  | .ldVxDt x => formatK 0xF x 0x07
  | .ldVxK x => formatK 0xF x 0x0A
  | .ldDtVx x => formatK 0xF x 0x15
  | .ldStVx x => formatK 0xF x 0x18
  | .addI x => formatK 0xF x 0x1E
  | .ldF x => formatK 0xF x 0x29
  | .ldB x => formatK 0xF x 0x33
  | .ldMemVx x => formatK 0xF x 0x55
  | .ldVxMem x => formatK 0xF x 0x65

/-- The check that a word is the canonical encoding of an instruction, neither an alias nor an
undefined word (R76). -/
def isCanonical (op : Word) : Bool :=
  match decode op with
  | .instr i => encode i == op
  | .undefinedWord => false

end Sys2Proof
end

