-- ==== Sys2Proof/Config.lean ====
section
/-! DEFINITION. The constants of 00_scope.md R5, and the two free values of a cycle: the keypad
sample and the random byte the host presents (R35, R36).  The 80 glyph bytes of R57 stand in
Machine/Ops.lean (`Machine.defaultFont`). -/

namespace Sys2Proof.Config

/-- `MEM_SIZE`: bytes of memory, the modulus of every address (R5, R50). -/
abbrev memSize : Nat := 4096

/-- `FONT_BASE`: the address of the first glyph byte (R5; 90_conflicts.md C1). -/
abbrev fontBase : Nat := 0x050

/-- Bytes per glyph (R5). -/
abbrev glyphSize : Nat := 5

/-- `PROG_BASE`: load address of the image and reset value of `pc` (R5, R41). -/
abbrev progBase : Nat := 0x200

/-- `IMAGE_MAX`: the largest image, 4096 - 0x200 bytes (R5, R191). -/
abbrev imageMax : Nat := 3584

/-- `STACK_DEPTH`: entries of the return stack (R5, R27). -/
abbrev stackDepth : Nat := 16

/-- Framebuffer columns (R5, R151). -/
abbrev columns : Nat := 64

/-- Framebuffer rows (R5, R151). -/
abbrev rows : Nat := 32

/-- FREE VALUE (log 1): the keypad sample of the `n`-th cycle for which the host has put no
input into `State.inputs`.  No body: nothing can be proved of it (R35, D11). -/
opaque freeKeys : Nat → Word

/-- FREE VALUE (log 1): the random byte of the `n`-th such cycle.  No body: nothing can be proved
of it (R36, D10). -/
opaque freeRnd : Nat → Byte

end Sys2Proof.Config
end

