-- ==== Sys2Proof/Machine/State.lean ====
section
/-! DEFINITION. The state of the core (10_state.md R20 to R32, R44), its reset value (R41, R190 with
an empty image), and the reasons a step can stop.  Field names are the spec's. -/

namespace Sys2Proof.Machine

/-- The fault register (R30, R172): no fault, or which of the two stack faults has halted the core.
The register's fourth value, 3, never occurs (R30, log 6); its code is `FaultCode.code` (Machine/Ops.lean). -/
inductive FaultCode where
  /-- code 0: running. -/
  | running
  /-- code 1: `CALL` with sixteen calls open (R170). -/
  | stackOverflow
  /-- code 2: `RET` with the stack empty (R171). -/
  | stackUnderflow
  deriving DecidableEq, Repr

/-- What the host presents for one cycle: the keypad sample, bit `k` set when key `k` is pressed
(R35), and the random byte (R36). -/
structure Inputs where
  keys : Word
  rnd  : Byte
  deriving DecidableEq, Repr

/-- The framebuffer: `FB[yy][xx]`, row `yy` 0 to 31, column `xx` 0 to 63, one bit a cell,
`true` = on (R32, R151). -/
abbrev Framebuffer := Vector (Vector Bool 64) 32

/-- The machine state.  The last two fields are the MODEL's own, not the spec's (log 1): they say
which inputs the host presents in the coming cycles. -/
structure State where
  /-- General registers `V0` to `VF`; `VF` is the flag register (R20, R22). -/
  V      : Vector Byte 16
  /-- Program counter, 16 bits of which 12 are significant (R24). -/
  pc     : Word
  /-- Index register, a full 16 bits (R26). -/
  I      : Word
  /-- Stack pointer: the number of open calls, 0 to 16 (R27, log 6). -/
  sp     : Fin 17
  /-- Call stack, a register array that no memory address reaches (R31). -/
  STK    : Vector Word 16
  /-- Delay timer (R28). -/
  dt     : Byte
  /-- Sound timer (R28). -/
  st     : Byte
  /-- Instruction register: the word fetched in the last cycle that completed (R29). -/
  ir     : Word
  /-- Fault register (R30). -/
  fault  : FaultCode
  /-- Main memory, 4096 bytes (R32): the bytes that differ from what an unlisted address reads as,
  in rising order of address (`Memory.wf`, Machine/Ops.lean). -/
  MEM    : List Host.Cell
  /-- Framebuffer (R32). -/
  FB     : Framebuffer
  /-- MODEL: inputs the host has decided on for the coming cycles, the next cycle's first.  When
  empty, a cycle's inputs are the free values `Config.freeKeys`, `Config.freeRnd`. -/
  inputs : List Inputs
  /-- MODEL: how many cycles have completed; the argument of the free values. -/
  cycles : Nat
  deriving DecidableEq, Repr

/-- Why the machine stops without a next state: NO REASON EXISTS (log 5).  The hardware's two faults (R172)
are states the machine goes on in (the halted state, R174), so they are next states and stand in
`State.fault`; fetch, decode and every memory access cannot fail (R50, R51, R83, R177). -/
inductive Fault where
  deriving DecidableEq, Repr

/-- Why the model gives an instruction no meaning. -/
inductive Refusal where
  /-- Raised by an arm of `exec` for an instruction that has no meaning yet; no arm does.  Safe: the
  run ends and nothing can be claimed past it. -/
  | notModelled (mnemonic : String)
  deriving DecidableEq, Repr

/-- What a step, or an instruction's rule, answers. -/
abbrev Result := Host.Outcome State Fault Refusal

/-- The state right after `Reset` with an empty image (R41, R190): every register, timer, stack
entry and framebuffer cell zero, `pc` at 0x200, memory as R56 describes it (nothing listed), and no
input decided on (log 1). -/
def State.reset : State where
  V      := Vector.replicate 16 0x00
  pc     := 0x200
  I      := 0x0000
  sp     := 0
  STK    := Vector.replicate 16 0x0000
  dt     := 0x00
  st     := 0x00
  ir     := 0x0000
  fault  := .running
  MEM    := []
  FB     := Vector.replicate 32 (Vector.replicate 64 false)
  inputs := []
  cycles := 0

end Sys2Proof.Machine
end

