-- ==== Sys2Proof/Machine/Ops.lean ====
section
/-! DEFINITION. The named operations over memory, the program counter, the stack and the timers,
and the one shared operation for raising a fault, with the frame of a cycle that carries a fault
out.  Everything the instruction meanings and the step share. -/

namespace Sys2Proof.Machine

/-! ### Memory (20_memory.md) -/

/-- Main memory as a list of cells. -/
abbrev Memory := List Host.Cell

/-- The default `FONT` table (R57), 80 bytes, digit `d` at index `5 * d`.  PRESUMED (log 2): the
spec marks these bytes as general knowledge; no rule but the reset contents depends on them. -/
def defaultFont : List Byte :=
  [0xF0, 0x90, 0x90, 0x90, 0xF0,  0x20, 0x60, 0x20, 0x20, 0x70,
   0xF0, 0x10, 0xF0, 0x80, 0xF0,  0xF0, 0x10, 0xF0, 0x10, 0xF0] ++
  [0x90, 0x90, 0xF0, 0x10, 0x10,  0xF0, 0x80, 0xF0, 0x10, 0xF0,
   0xF0, 0x80, 0xF0, 0x90, 0xF0,  0xF0, 0x10, 0x20, 0x40, 0x40] ++
  [0xF0, 0x90, 0xF0, 0x90, 0xF0,  0xF0, 0x90, 0xF0, 0x10, 0xF0,
   0xF0, 0x90, 0xF0, 0x90, 0x90,  0xE0, 0x90, 0xE0, 0x90, 0xE0] ++
  [0xF0, 0x80, 0x80, 0x80, 0xF0,  0xE0, 0x90, 0x90, 0x90, 0xE0,
   0xF0, 0x80, 0xF0, 0x80, 0xF0,  0xF0, 0x80, 0xF0, 0x80, 0x80]

/-- What an unlisted address reads as: the reset contents of R56 with an empty image and the
default `FONT`, that is the glyph bytes at 0x050 to 0x09F and zero elsewhere. -/
def Memory.unlisted (a : Nat) : Byte :=
  if Config.fontBase ≤ a ∧ a < Config.fontBase + 80 then defaultFont.getD (a - Config.fontBase) 0
  else 0

/-- The byte at address `a`. -/
def Memory.read : Memory → Nat → Byte
  | [], a => Memory.unlisted a
  | (b, v) :: m, a => if b = a then v else Memory.read m a

/-- Put a byte at address `a`, keeping the canonical form: a cell that would read as an unlisted
address does is not listed. -/
def Memory.write : Memory → Nat → Byte → Memory
  | [], a, v => if v = Memory.unlisted a then [] else [(a, v)]
  | (b, u) :: m, a, v =>
    if a < b then (if v = Memory.unlisted a then (b, u) :: m else (a, v) :: (b, u) :: m)
    else if a = b then (if v = Memory.unlisted a then m else (a, v) :: m)
    else (b, u) :: Memory.write m a v

/-- The canonical form from address `lo` on: addresses rise strictly, stay below 4096, and no cell
holds what its address reads as when unlisted. -/
def Memory.wfFrom : Nat → Memory → Bool
  | _, [] => true
  | lo, (a, v) :: m =>
    decide (lo ≤ a) && decide (a < Config.memSize) && decide (v ≠ Memory.unlisted a) &&
      Memory.wfFrom (a + 1) m

/-- Memory is in its canonical form. -/
def Memory.wf (m : Memory) : Bool := Memory.wfFrom 0 m

/-- Write consecutive bytes from address `a` upward. -/
def Memory.writeBytes : Memory → Nat → List Byte → Memory
  | m, _, [] => m
  | m, a, v :: vs => Memory.writeBytes (Memory.write m a v) (a + 1) vs

/-- `MemRead(addr, 1)`: the byte at `addr mod 4096` (R50). -/
def State.memRead (s : State) (addr : Nat) : Byte := Memory.read s.MEM (addr % Config.memSize)

/-- `MemWrite(addr, 1, v)`: store `v` at `addr mod 4096`; every byte is writable (R51, R58). -/
def State.memWrite (s : State) (addr : Nat) (v : Byte) : State :=
  { s with MEM := Memory.write s.MEM (addr % Config.memSize) v }

/-! ### Program counter (R24) -/

/-- The value `pc` takes when `t` is written to it: `t mod 4096` (R24). -/
def toPc (t : Nat) : Word := BitVec.ofNat 16 (t % Config.memSize)

/-- `pc <- t`. -/
def State.setPc (s : State) (t : Nat) : State := { s with pc := toPc t }

/-- `skip` when the condition holds: `pc <- pc + 2` a second time (R113). -/
def State.skipIf (s : State) (c : Bool) : State :=
  { s with pc := if c then toPc (s.pc.toNat + 2) else s.pc }

/-- The stall of the key wait: `pc <- (pc - 2) mod 4096`, which is `pc0` (R163). -/
def State.stall (s : State) : State := s.setPc (s.pc - 2).toNat

/-! ### Index register (R26) -/

/-- `I <- n`, kept modulo 65536 (R26, R141). -/
def State.setIndex (s : State) (n : Nat) : State := { s with I := BitVec.ofNat 16 n }

/-! ### Return stack (R27, R31) -/

/-- `STK[sp] <- pc` and `sp <- sp + 1`, when an entry is free (R112 steps 2 and 3). -/
def State.pushPc (s : State) (free : s.sp.val < 16) : State :=
  { s with STK := s.STK.set s.sp.val s.pc free, sp := ⟨s.sp.val + 1, by omega⟩ }

/-- `sp <- sp - 1` and `pc <- STK[sp]`, when an entry is open; the entry keeps its value
(R110 steps 2 and 3, R31). -/
def State.popPc (s : State) (isOpen : 0 < s.sp.val) : State :=
  { s with sp := ⟨s.sp.val - 1, by omega⟩
           pc := toPc (s.STK[s.sp.val - 1]'(by omega)).toNat }

/-! ### Timers (R96) -/

/-- One tick of a timer: one less, with a floor of zero. -/
def tick (t : Byte) : Byte := if t = 0 then 0 else t - 1

/-! ### Inputs of the cycle (R35, R36, R99) -/

/-- This cycle's keypad sample: what the host has decided on, or else a free value. -/
def State.keys (s : State) : Word :=
  match s.inputs with
  | i :: _ => i.keys
  | [] => Config.freeKeys s.cycles

/-- This cycle's random byte: what the host has decided on, or else a free value. -/
def State.rnd (s : State) : Byte :=
  match s.inputs with
  | i :: _ => i.rnd
  | [] => Config.freeRnd s.cycles

/-! ### Faults (60_exceptions.md) -/

/-- The code a fault shows on the `fault` output (R30, R172). -/
def FaultCode.code : FaultCode → BitVec 2
  | .running => 0
  | .stackOverflow => 1
  | .stackUnderflow => 2

/-- `raise F` (R176): stop executing the instruction and set `fault`.  It is the first step of the
instruction that contains it, so nothing else has been written; `State.endCycle` undoes the fetch
and the advance (R90 step 4, R98, R173).  There is no handler and no return (R175, R181): only
`Reset` leaves the halted state. -/
def raise (f : FaultCode) (s : State) : Result := .next { s with fault := f }

/-! ### The frame of a cycle (40_cycle_sequencer.md) -/

/-- The word at `pc`, high byte first, each address modulo 4096 (R52, R54, R91). -/
def State.fetchWord (s : State) : Word := s.memRead s.pc.toNat ++ s.memRead (s.pc.toNat + 1)

/-- Steps 1 and 2 of a cycle: latch the fetched word in `ir` and advance `pc` by 2 (R91, R92). -/
def State.beginCycle (s : State) : State :=
  { s with ir := s.fetchWord, pc := toPc (s.pc.toNat + 2) }

/-- Step 5 of a cycle: both timers tick (R96).  The inputs of the cycle are used up (log 1). -/
def State.completeCycle (s : State) : State :=
  { s with dt := tick s.dt, st := tick s.st, inputs := s.inputs.tail, cycles := s.cycles + 1 }

/-- The end of a cycle that began in `before` and executed to `after`: the tick, or, when the
instruction raised a fault, everything as it was before the cycle but for `fault` (R90, R98, R173). -/
def State.endCycle (before after : State) : State :=
  match after.fault with
  | .running => after.completeCycle
  | .stackOverflow => { before with fault := .stackOverflow }
  | .stackUnderflow => { before with fault := .stackUnderflow }

/-- Bring what an instruction's rule answers to the end of its cycle. -/
def finishCycle (before : State) : Result → Result
  | .next after => .next (before.endCycle after)
  | .fault r => .fault r
  | .refused r => .refused r

/-! ### Placing an instruction (R52) -/

/-- Store a word, high byte first, at the two bytes the next cycle fetches. -/
def State.placeWord (s : State) (op : Word) : State :=
  (s.memWrite s.pc.toNat (op.extractLsb' 8 8)).memWrite (s.pc.toNat + 1) (op.extractLsb' 0 8)

end Sys2Proof.Machine
end

