-- ==== Sys2Proof/Machine/Operands.lean ====
section
/-! DEFINITION. Operands: general registers, the ranges `V[0]..V[x]` of the block transfers, and the
indices that use only the low bits of a register. -/

namespace Sys2Proof.Machine

/-- `V[r]` (R9, R20). -/
def State.reg (s : State) (r : Reg) : Byte := s.V[r]

/-- `V[r] <- v` (R9, R20): no register is hard-wired. -/
def State.setReg (s : State) (r : Reg) (v : Byte) : State := { s with V := s.V.set r v }

/-- The sixteen register numbers in ascending order. -/
def allRegs : List Reg := [0, 1, 2, 3, 4, 5, 6, 7, 8, 9, 10, 11, 12, 13, 14, 15]

/-- The registers `V[0]..V[x]`, `x` included, in ascending order (R145, R146). -/
def regsUpTo (x : Reg) : List Reg := allRegs.filter (fun i => decide (i ≤ x))

/-- The memory operand at offset `k`: the address `I + k`, which every access reduces modulo 4096
(R147, R50). -/
def State.dataAddr (s : State) (k : Nat) : Nat := s.I.toNat + k

/-- The key a register selects: its low four bits (R160, D5). -/
def keyIndex (v : Byte) : Nat := v.toNat % 16

/-- The level of the key that `v` selects, in this cycle's sample (R35, R160). -/
def State.keyPressed (s : State) (v : Byte) : Bool := s.keys.getLsbD (keyIndex v)

/-- The least `i` with `keys[i] = 1` (R163); the default is never used, since the instruction stalls
when no key is pressed. -/
def leastKey (keys : Word) : Reg := (allRegs.find? (fun i => keys.getLsbD i.val)).getD 0

/-- The address of the glyph of a digit: 0x050 + 5 * (v mod 16) (R142, D3). -/
def glyphAddr (v : Byte) : Nat := Config.fontBase + Config.glyphSize * (v.toNat % 16)

/-- The three decimal digits of a byte: hundreds, tens, ones (R143). -/
def hundreds (v : Byte) : Byte := BitVec.ofNat 8 (v.toNat / 100)

/-- Tens digit (R143). -/
def tens (v : Byte) : Byte := BitVec.ofNat 8 (v.toNat / 10 % 10)

/-- Ones digit (R143). -/
def ones (v : Byte) : Byte := BitVec.ofNat 8 (v.toNat % 10)

end Sys2Proof.Machine
end

