-- ==== Sys2Proof/Machine/Flags.lean ====
section
/-! DEFINITION. The flag register `VF` (R22): the values written to it, and the order of the two
writes of an arithmetic instruction (R120). -/

namespace Sys2Proof.Machine

/-- A flag as the whole byte 0x00 or 0x01 (R22). -/
def flagByte (b : Bool) : Byte := if b then 0x01 else 0x00

/-- Carry out of bit 7: the exact sum exceeds 255 (R127). -/
def carryOut (a b : Byte) : Bool := decide (255 < a.toNat + b.toNat)

/-- The flag of the subtractions: strictly greater, so equal operands give 0 (R128, R130, D28). -/
def exceeds (a b : Byte) : Bool := decide (b.toNat < a.toNat)

/-- The bit a right shift drops (R129). -/
def bitOutRight (a : Byte) : Bool := decide (a.toNat % 2 = 1)

/-- The bit a left shift drops (R131). -/
def bitOutLeft (a : Byte) : Bool := decide (a.toNat / 128 = 1)

/-- `VF <- f` (R22). -/
def State.setFlag (s : State) (f : Bool) : State := s.setReg flagReg (flagByte f)

/-- First the flag, then the result: with `x = 15` the result overwrites the flag (R120, D9).  The
caller has sampled its operands before. -/
def State.setFlagThenReg (s : State) (f : Bool) (x : Reg) (v : Byte) : State :=
  (s.setFlag f).setReg x v

end Sys2Proof.Machine
end

