-- ==== Sys2Proof/Machine/Alu.lean ====
section
/-! DEFINITION. Register load, arithmetic, logic, shift and random (42_alu.md).  Results are computed
exactly on natural numbers and narrowed to 8 bits (R127, R133). -/

namespace Sys2Proof.Machine

/-- `LD Vx, kk` (R121). -/
def execLdByte (x : Reg) (kk : Byte) (s : State) : Result := .next (s.setReg x kk)

/-- `ADD Vx, kk` (R122): no flag. -/
def execAddByte (x : Reg) (kk : Byte) (s : State) : Result :=
  .next (s.setReg x (BitVec.ofNat 8 ((s.reg x).toNat + kk.toNat)))

/-- `LD Vx, Vy` (R123). -/
def execLdReg (x y : Reg) (s : State) : Result := .next (s.setReg x (s.reg y))

/-- `OR Vx, Vy` (R124): no flag. -/
def execOrReg (x y : Reg) (s : State) : Result := .next (s.setReg x (s.reg x ||| s.reg y))

/-- `AND Vx, Vy` (R125): no flag. -/
def execAndReg (x y : Reg) (s : State) : Result := .next (s.setReg x (s.reg x &&& s.reg y))

/-- `XOR Vx, Vy` (R126): no flag. -/
def execXorReg (x y : Reg) (s : State) : Result := .next (s.setReg x (s.reg x ^^^ s.reg y))

/-- `ADD Vx, Vy` (R127). -/
def execAddReg (x y : Reg) (s : State) : Result :=
  let a := s.reg x
  let b := s.reg y
  .next (s.setFlagThenReg (carryOut a b) x (BitVec.ofNat 8 (a.toNat + b.toNat)))

/-- `SUB Vx, Vy` (R128): the difference modulo 256. -/
def execSubReg (x y : Reg) (s : State) : Result :=
  let a := s.reg x
  let b := s.reg y
  .next (s.setFlagThenReg (exceeds a b) x (a - b))

/-- `SHR Vx` (R129): logical, `y` is no operand. -/
def execShr (x : Reg) (s : State) : Result :=
  let a := s.reg x
  .next (s.setFlagThenReg (bitOutRight a) x (BitVec.ofNat 8 (a.toNat / 2)))

/-- `SUBN Vx, Vy` (R130): the destination is still `V[x]`. -/
def execSubnReg (x y : Reg) (s : State) : Result :=
  let a := s.reg x
  let b := s.reg y
  .next (s.setFlagThenReg (exceeds b a) x (b - a))

/-- `SHL Vx` (R131): truncation, not rotation; `y` is no operand. -/
def execShl (x : Reg) (s : State) : Result :=
  let a := s.reg x
  .next (s.setFlagThenReg (bitOutLeft a) x (BitVec.ofNat 8 (a.toNat * 2)))

/-- `RND Vx, kk` (R132). -/
def execRnd (x : Reg) (kk : Byte) (s : State) : Result := .next (s.setReg x (s.rnd &&& kk))

end Sys2Proof.Machine
end

