-- ==== Sys2Proof/Machine/Display.lean ====
section
/-! DEFINITION. The framebuffer writer and the collision detector (44_display.md).  The drawing loop
is written as R152 writes it, pixel by pixel; R153 (c), the exclusive or with the clipped sprite, is
an obligation about it. -/

namespace Sys2Proof.Machine

/-- The cell `FB[yy][xx]`; off outside the grid, where no rule looks. -/
def Framebuffer.cell (fb : Framebuffer) (yy xx : Nat) : Bool :=
  if h : yy < 32 ∧ xx < 64 then (fb[yy]'h.1)[xx]'h.2 else false

/-- `FB[yy][xx] <- FB[yy][xx] ^ 1`; outside the grid there is no cell. -/
def Framebuffer.toggle (fb : Framebuffer) (yy xx : Nat) : Framebuffer :=
  if h : yy < 32 ∧ xx < 64 then
    fb.set yy ((fb[yy]'h.1).set xx (!((fb[yy]'h.1)[xx]'h.2)) h.2) h.1
  else fb

/-- All 2048 cells off. -/
def Framebuffer.blank : Framebuffer := Vector.replicate 32 (Vector.replicate 64 false)

/-- What drawing carries along: the framebuffer, and whether a collision was seen. -/
abbrev Drawing := Framebuffer × Bool

/-- One sprite pixel at row `yy`, column `xx`: a pixel of value 1 inside the grid collides with a
cell that is on, and toggles it; others do nothing (R152 step 2, D4). -/
def drawPixel (yy xx : Nat) (bit : Bool) (d : Drawing) : Drawing :=
  if bit && decide (xx ≤ 63) then (d.1.toggle yy xx, d.2 || d.1.cell yy xx) else d

/-- One sprite byte, bit 7 first, on row `yy` from column `x0` (R151, R152). -/
def drawRow (b : Byte) (yy x0 : Nat) (d : Drawing) : Drawing :=
  (List.range 8).foldl (fun d c => drawPixel yy (x0 + c) (b.getLsbD (7 - c)) d) d

/-- `n` sprite rows from `(x0, y0)`; a row below the grid is not drawn (R152 step 2, D30). -/
def drawSprite (sprite : Nat → Byte) (x0 y0 n : Nat) (fb : Framebuffer) : Drawing :=
  (List.range n).foldl
    (fun d r => if y0 + r ≤ 31 then drawRow (sprite r) (y0 + r) x0 d else d) (fb, false)

/-- `CLS` (R150). -/
def execCls (s : State) : Result := .next { s with FB := Framebuffer.blank }

/-- `DRW Vx, Vy, n` (R152): the start position wraps and is sampled before `VF` is written. -/
def execDrw (x y : Reg) (n : RowCount) (s : State) : Result :=
  let x0 := (s.reg x).toNat % 64
  let y0 := (s.reg y).toNat % 32
  let d := drawSprite (fun r => s.memRead (s.dataAddr r)) x0 y0 n.val s.FB
  .next ({ s with FB := d.1 }.setFlag d.2)

end Sys2Proof.Machine
end

