-- ==== Sys2Proof/Machine/Flow.lean ====
section
/-! DEFINITION. Control transfer (41_flow.md).  In every meaning `s.pc` is the advanced value
`pc0 + 2 mod 4096` (R92, R94). -/

namespace Sys2Proof.Machine

/-- `RET` (R110). -/
def execRet (s : State) : Result :=
  if h : s.sp.val = 0 then raise .stackUnderflow s
  else .next (s.popPc (by omega))

/-- `JP nnn` (R111). -/
def execJp (nnn : Addr) (s : State) : Result := .next (s.setPc nnn.toNat)

/-- `CALL nnn` (R112). -/
def execCall (nnn : Addr) (s : State) : Result :=
  if h : s.sp.val = 16 then raise .stackOverflow s
  else .next ((s.pushPc (by omega)).setPc nnn.toNat)

/-- `SE Vx, kk` (R114). -/
def execSeByte (x : Reg) (kk : Byte) (s : State) : Result :=
  .next (s.skipIf (decide (s.reg x = kk)))

/-- `SNE Vx, kk` (R115). -/
def execSneByte (x : Reg) (kk : Byte) (s : State) : Result :=
  .next (s.skipIf (decide (s.reg x ≠ kk)))

/-- `SE Vx, Vy` (R116). -/
def execSeReg (x y : Reg) (s : State) : Result :=
  .next (s.skipIf (decide (s.reg x = s.reg y)))

/-- `SNE Vx, Vy` (R117). -/
def execSneReg (x y : Reg) (s : State) : Result :=
  .next (s.skipIf (decide (s.reg x ≠ s.reg y)))

/-- `JP V0, nnn` (R118). -/
def execJpV0 (nnn : Addr) (s : State) : Result :=
  .next (s.setPc ((s.reg 0).toNat + nnn.toNat))

end Sys2Proof.Machine
end

