-- ==== Sys2Proof/Machine/IndexMemory.lean ====
section
/-! DEFINITION. Index register, loads and stores (43_index_memory.md).  The block transfers leave `I`
unchanged (R144). -/

namespace Sys2Proof.Machine

/-- Store `V[i]` at `I + i` for each register of a list, in its order (R145). -/
def State.dumpRegs (s : State) (rs : List Reg) : State :=
  rs.foldl (fun t i => t.memWrite (s.dataAddr i.val) (s.reg i)) s

/-- Load `V[i]` from `I + i` for each register of a list, in its order (R146). -/
def State.loadRegs (s : State) (rs : List Reg) : State :=
  rs.foldl (fun t i => t.setReg i (s.memRead (s.dataAddr i.val))) s

/-- `LD I, nnn` (R140). -/
def execLdI (nnn : Addr) (s : State) : Result := .next (s.setIndex nnn.toNat)

/-- `ADD I, Vx` (R141): modulo 65536, no flag. -/
def execAddI (x : Reg) (s : State) : Result :=
  .next (s.setIndex (s.I.toNat + (s.reg x).toNat))

/-- `LD F, Vx` (R142): an address only; no memory is read. -/
def execLdF (x : Reg) (s : State) : Result := .next (s.setIndex (glyphAddr (s.reg x)))

/-- `LD B, Vx` (R143): three whole bytes, each address reduced separately (R65). -/
def execLdB (x : Reg) (s : State) : Result :=
  let v := s.reg x
  .next (((s.memWrite (s.dataAddr 0) (hundreds v)).memWrite (s.dataAddr 1) (tens v)).memWrite
    (s.dataAddr 2) (ones v))

/-- `LD [I], Vx` (R145). -/
def execLdMemVx (x : Reg) (s : State) : Result := .next (s.dumpRegs (regsUpTo x))

/-- `LD Vx, [I]` (R146). -/
def execLdVxMem (x : Reg) (s : State) : Result := .next (s.loadRegs (regsUpTo x))

end Sys2Proof.Machine
end

