-- ==== Sys2Proof/Machine/KeypadTimers.lean ====
section
/-! DEFINITION. Keypad and timer instructions (45_keypad_timers.md).  The tick of R96 follows every
instruction and is no part of a meaning. -/

namespace Sys2Proof.Machine

/-- `SKP Vx` (R160). -/
def execSkp (x : Reg) (s : State) : Result := .next (s.skipIf (s.keyPressed (s.reg x)))

/-- `SKNP Vx` (R161). -/
def execSknp (x : Reg) (s : State) : Result := .next (s.skipIf (!s.keyPressed (s.reg x)))

/-- `LD Vx, DT` (R162): the value before this cycle's tick. -/
def execLdVxDt (x : Reg) (s : State) : Result := .next (s.setReg x s.dt)

/-- `LD Vx, K` (R163): stall with no key pressed, else the lowest key. -/
def execLdVxK (x : Reg) (s : State) : Result :=
  .next (if s.keys = 0 then s.stall
    else s.setReg x (BitVec.ofNat 8 (leastKey s.keys).val))

/-- `LD DT, Vx` (R164). -/
def execLdDtVx (x : Reg) (s : State) : Result := .next { s with dt := s.reg x }

/-- `LD ST, Vx` (R165). -/
def execLdStVx (x : Reg) (s : State) : Result := .next { s with st := s.reg x }

end Sys2Proof.Machine
end

