-- ==== Sys2Proof/Machine/Step.lean ====
section
/-! DEFINITION. One cycle (40_cycle_sequencer.md R90), and the host's operation `Cycle` (R34). -/

namespace Sys2Proof.Machine

/-- One cycle (R90): nothing when halted (R97); else fetch, advance, decode, execute (a no-op for an
undefined word, R95), and the tick or the fault path.  The cycle's inputs are `s.keys`, `s.rnd`. -/
def step (s : State) : Host.Outcome State Fault Refusal :=
  match s.fault with
  | .running =>
    match decode s.fetchWord with
    | .instr i => finishCycle s (exec i s.beginCycle)
    | .undefinedWord => finishCycle s (.next s.beginCycle)
  | .stackOverflow => .next s
  | .stackUnderflow => .next s

/-- `Cycle(keys, rnd)` (R34, R90): one cycle with the inputs the host presents.  What it had decided
on for later cycles is left as it was (log 8). -/
def cycle (keys : Word) (rnd : Byte) (s : State) : Result :=
  match step { s with inputs := ⟨keys, rnd⟩ :: s.inputs } with
  | .next t => .next { t with inputs := s.inputs }
  | .fault r => .fault r
  | .refused r => .refused r

/-- `s` with the instruction word `w` (bits at or above `nbits` zero, bit 0 the least significant)
stored where the next cycle fetches, high byte first.  Nothing else changes: a halted core stays
halted (log 7). -/
def State.withFetchWord (s : State) (nbits w : Nat) : State :=
  s.placeWord (BitVec.ofNat 16 (w % 2 ^ nbits))

end Sys2Proof.Machine
end

