-- ==== Sys2Proof/WellFormed.lean ====
section
/-! DEFINITION. Well-formedness of what the outside gives the core.

An `Instr` needs no check of its own: its operand types (`Reg`, `Byte`, `Addr`, `RowCount`) admit
exactly the values of the 4-, 8- and 12-bit fields, and R20 and R73 make every one of them legal.
What can be ill-formed is a program image (R191), and a word that is not the canonical encoding
of an instruction (R76: `isCanonical`, in Decode.lean, beside the encoder it needs).
Well-formedness of memory is `Memory.wf` (Machine/Ops.lean), of a state `State.Inv` (Safety.lean). -/

namespace Sys2Proof

/-- R191: an image of 0 to 3584 bytes is accepted; a longer one is `ImageTooLarge`. -/
def imageWf (image : List Byte) : Bool := decide (image.length ≤ Config.imageMax)

end Sys2Proof
end

