-- ==== Sys2Proof/Machine/Reset.lean ====
section
/-! DEFINITION. The operation `Reset(IMAGE)` (R40, R190 to R192), for any image and any glyph table:
`FONT` and `IMAGE` are the two parameters of R6. -/

namespace Sys2Proof.Machine

/-- Why a reset is refused (R191).  `ImageUnreadable` belongs to the loader and has no counterpart. -/
inductive ResetError where
  | imageTooLarge
  deriving DecidableEq, Repr

/-- Memory after a reset with glyph table `font` and image `image` (R56, R190).  Every address that
neither covers reads zero; the glyph area is overwritten by `font`. -/
def resetMemory (font : Vector Byte 80) (image : List Byte) : Memory :=
  Memory.writeBytes (Memory.writeBytes [] Config.fontBase font.toList) Config.progBase image

/-- `Reset(IMAGE)` with glyph table `font`: a machine state, or a refusal that yields none.  The state
before the reset is no argument: nothing survives (R192). -/
def resetWith (font : Vector Byte 80) (image : List Byte) : Except ResetError State :=
  if imageWf image then .ok { State.reset with MEM := resetMemory font image }
  else .error .imageTooLarge

end Sys2Proof.Machine
end

