-- ==== Sys2Proof/Safety.lean ====
section
/-! DEFINITION. What claims are stated in: the invariant of a state (R43), the halted state (R97,
R174), what the host can see (R42), the end of a run (R197), straight-line execution (R100), and the
vocabulary of encodings and frames. -/

namespace Sys2Proof.Machine

/-! ### States -/

/-- The invariants of R43 that the types do not already give: `pc` and every stack entry are at most
0xFFF, and memory is in its canonical form (so it lists nothing at or above 4096). -/
abbrev State.Inv (s : State) : Prop :=
  s.pc.toNat < 4096 ∧ (∀ i : Fin 16, s.STK[i].toNat < 4096) ∧ Memory.wf s.MEM = true

/-- The core has not faulted (R30). -/
abbrev State.Running (s : State) : Prop := s.fault = .running

/-- The core has faulted and waits for a reset (R97, R174). -/
abbrev State.Halted (s : State) : Prop := s.fault ≠ .running

/-- R197: the run has ended when the word at `pc` is `JP pc` and the core has not faulted. -/
abbrev State.Ended (s : State) : Prop :=
  s.fetchWord.toNat = 0x1000 + s.pc.toNat ∧ s.Running

/-- What the host can read between cycles, and nothing else (R37 to R39, R42). -/
structure HostView where
  FB    : Framebuffer
  dt    : Byte
  st    : Byte
  fault : BitVec 2
  deriving DecidableEq, Repr

/-- The host's view of a state. -/
def State.hostView (s : State) : HostView := ⟨s.FB, s.dt, s.st, s.fault.code⟩

/-- The state as steps 1 and 2 of a cycle leave it (R91, R92): the word latched, `pc` advanced. -/
abbrev State.fetched (s : State) : State :=
  { s with ir := s.fetchWord, pc := BitVec.ofNat 16 ((s.pc.toNat + 2) % 4096) }

/-- Step 5 of a cycle (R96), and the cycle's inputs used up (log 1). -/
abbrev State.ticked (s : State) : State :=
  { s with dt := BitVec.ofNat 8 (s.dt.toNat - 1), st := BitVec.ofNat 8 (s.st.toNat - 1)
           inputs := s.inputs.tail, cycles := s.cycles + 1 }

/-! ### Encodings -/

/-- Every word that belongs to the row `mask`, `fixed` decodes to the instruction `f` reads from it. -/
abbrev DecodesTo (mask fixed : Word) (f : Word → Instr) : Prop :=
  ∀ w : Word, w &&& mask = fixed → decode w = .instr (f w)

/-- The next cycle of the core executes `i`. -/
abbrev State.About (s : State) (i : Instr) : Prop := s.Running ∧ decode s.fetchWord = .instr i

/-! ### Frames -/

/-- Every byte of memory reads as before. -/
abbrev KeepsMem (s t : State) : Prop := ∀ a, t.memRead a = s.memRead a

/-- Every general register is as before. -/
abbrev KeepsRegs (s t : State) : Prop := ∀ r, t.reg r = s.reg r

/-- `ir`, `fault` and the model's inputs are as before: no instruction that runs writes them. -/
abbrev KeepsInternals (s t : State) : Prop :=
  t.ir = s.ir ∧ t.fault = s.fault ∧ t.inputs = s.inputs ∧ t.cycles = s.cycles

/-- Nothing differs but general registers that `P` names. -/
abbrev OnlyRegs (P : Reg → Prop) (s t : State) : Prop :=
  (∀ r, ¬ P r → t.reg r = s.reg r) ∧ t.pc = s.pc ∧ t.I = s.I ∧ t.sp = s.sp ∧ t.STK = s.STK ∧
    t.dt = s.dt ∧ t.st = s.st ∧ t.FB = s.FB ∧ KeepsMem s t ∧ KeepsInternals s t

/-- Nothing differs but `pc`. -/
abbrev OnlyPc (s t : State) : Prop :=
  KeepsRegs s t ∧ t.I = s.I ∧ t.sp = s.sp ∧ t.STK = s.STK ∧ t.dt = s.dt ∧ t.st = s.st ∧
    t.FB = s.FB ∧ KeepsMem s t ∧ KeepsInternals s t

/-- Nothing differs but `pc`, `sp` and stack entries that `P` names. -/
abbrev OnlyPcStack (P : Fin 16 → Prop) (s t : State) : Prop :=
  KeepsRegs s t ∧ t.I = s.I ∧ (∀ i : Fin 16, ¬ P i → t.STK[i] = s.STK[i]) ∧ t.dt = s.dt ∧
    t.st = s.st ∧ t.FB = s.FB ∧ KeepsMem s t ∧ KeepsInternals s t

/-- Nothing differs but `I`. -/
abbrev OnlyIndex (s t : State) : Prop :=
  KeepsRegs s t ∧ t.pc = s.pc ∧ t.sp = s.sp ∧ t.STK = s.STK ∧ t.dt = s.dt ∧ t.st = s.st ∧
    t.FB = s.FB ∧ KeepsMem s t ∧ KeepsInternals s t

/-- Nothing differs but bytes of memory at addresses that `Stored` names. -/
abbrev OnlyMem (Stored : Nat → Prop) (s t : State) : Prop :=
  KeepsRegs s t ∧ t.pc = s.pc ∧ t.I = s.I ∧ t.sp = s.sp ∧ t.STK = s.STK ∧ t.dt = s.dt ∧
    t.st = s.st ∧ t.FB = s.FB ∧ (∀ a, ¬ Stored a → t.memRead a = s.memRead a) ∧
    KeepsInternals s t

/-- Nothing differs but the framebuffer and general registers that `P` names. -/
abbrev OnlyScreen (P : Reg → Prop) (s t : State) : Prop :=
  (∀ r, ¬ P r → t.reg r = s.reg r) ∧ t.pc = s.pc ∧ t.I = s.I ∧ t.sp = s.sp ∧ t.STK = s.STK ∧
    t.dt = s.dt ∧ t.st = s.st ∧ KeepsMem s t ∧ KeepsInternals s t

/-- Nothing differs but the two timers. -/
abbrev OnlyTimers (s t : State) : Prop :=
  KeepsRegs s t ∧ t.pc = s.pc ∧ t.I = s.I ∧ t.sp = s.sp ∧ t.STK = s.STK ∧ t.FB = s.FB ∧
    KeepsMem s t ∧ KeepsInternals s t

/-! ### Drawing -/

/-- The clipped sprite of `DRW Vx, Vy, n` (R151, R152, R153 (c)): whether cell `(yy, xx)` lies under a
sprite pixel of value 1.  The start wraps, the pixels do not; outside the 64 by 32 grid there is no
cell to ask about. -/
def State.spriteCovers (s : State) (x y : Reg) (n : RowCount) (yy xx : Nat) : Bool :=
  let x0 := (s.reg x).toNat % 64
  let y0 := (s.reg y).toNat % 32
  decide (y0 ≤ yy) && decide (yy < y0 + n.val) && decide (x0 ≤ xx) && decide (xx < x0 + 8) &&
    (s.memRead (s.I.toNat + (yy - y0))).getLsbD (7 - (xx - x0))

/-! ### Straight-line execution (R100) -/

/-- The next word neither transfers control nor stalls in this state: it is no jump, call or return,
no skip whose condition holds, and no key wait without a key (R100). -/
def State.Straight (s : State) : Prop :=
  match decode s.fetchWord with
  | .undefinedWord => True
  | .instr i =>
    match i with
    | .jp _ | .call _ | .ret | .jpV0 _ => False
    | .seByte x kk => s.reg x ≠ kk
    | .sneByte x kk => s.reg x = kk
    | .seReg x y => s.reg x ≠ s.reg y
    | .sneReg x y => s.reg x = s.reg y
    | .skp x => s.keys.getLsbD ((s.reg x).toNat % 16) = false
    | .sknp x => s.keys.getLsbD ((s.reg x).toNat % 16) = true
    | .ldVxK _ => s.keys ≠ 0
    | .cls | .ldByte _ _ | .addByte _ _ | .ldReg _ _ | .orReg _ _ | .andReg _ _ | .xorReg _ _
    | .addReg _ _ | .subReg _ _ | .shr _ | .subnReg _ _ | .shl _ | .ldI _ | .rnd _ _ | .drw _ _ _
    | .ldVxDt _ | .ldDtVx _ | .ldStVx _ | .addI _ | .ldF _ | .ldB _ | .ldMemVx _ | .ldVxMem _ => True

/-- The next `k` cycles from here are straight-line. -/
def StraightLine : Nat → State → Prop
  | 0, _ => True
  | k + 1, s => s.Running ∧ s.Straight ∧ ∀ t, step s = .next t → StraightLine k t

/-! ### Which instruction writes what (R22, R23) -/

/-- The general registers an instruction may write (R23, last column). -/
def writesReg : Instr → Reg → Prop
  | .ldByte x _, r | .addByte x _, r | .ldReg x _, r | .orReg x _, r | .andReg x _, r
  | .xorReg x _, r | .rnd x _, r | .ldVxDt x, r | .ldVxK x, r => r = x
  | .addReg x _, r | .subReg x _, r | .subnReg x _, r | .shr x, r | .shl x, r => r = x ∨ r = 15
  | .drw _ _ _, r => r = 15
  | .ldVxMem x, r => r ≤ x
  | .cls, _ | .ret, _ | .jp _, _ | .call _, _ | .seByte _ _, _ | .sneByte _ _, _ | .seReg _ _, _
  | .sneReg _ _, _ | .ldI _, _ | .jpV0 _, _ | .skp _, _ | .sknp _, _ | .ldDtVx _, _ | .ldStVx _, _
  | .addI _, _ | .ldF _, _ | .ldB _, _ | .ldMemVx _, _ => False

/-- Where `pc` stands at the end of the cycle that executes `i` from `s` without a fault (the table
of R24). -/
def State.pcAfter (s : State) (i : Instr) : Nat :=
  let on := (s.pc.toNat + 2) % 4096
  let past := (s.pc.toNat + 4) % 4096
  match i with
  | .jp nnn | .call nnn => nnn.toNat
  | .ret => (s.STK.getD (s.sp.val - 1) 0).toNat % 4096
  | .jpV0 nnn => ((s.reg 0).toNat + nnn.toNat) % 4096
  | .seByte x kk => if s.reg x = kk then past else on
  | .sneByte x kk => if s.reg x = kk then on else past
  | .seReg x y => if s.reg x = s.reg y then past else on
  | .sneReg x y => if s.reg x = s.reg y then on else past
  | .skp x => if s.keys.getLsbD ((s.reg x).toNat % 16) then past else on
  | .sknp x => if s.keys.getLsbD ((s.reg x).toNat % 16) then on else past
  | .ldVxK _ => if s.keys = 0 then s.pc.toNat % 4096 else on
  | .cls | .ldByte _ _ | .addByte _ _ | .ldReg _ _ | .orReg _ _ | .andReg _ _ | .xorReg _ _
  | .addReg _ _ | .subReg _ _ | .shr _ | .subnReg _ _ | .shl _ | .ldI _ | .rnd _ _ | .drw _ _ _
  | .ldVxDt _ | .ldDtVx _ | .ldStVx _ | .addI _ | .ldF _ | .ldB _ | .ldMemVx _ | .ldVxMem _ => on

end Sys2Proof.Machine
end

