-- ==== Sys2Proof/Certificates/Slice0/Obligations.lean ====
section
/-! DEFINITION. The statements for the provers.  Each docstring names the rule of spec/ it
formalises.  A statement about an instruction says what words decode to it, that `exec` answers a
next state, what that state holds, and that nothing else differs (the `Only…` frames of Safety.lean:
`KeepsMem` and its kin speak of every byte through `State.memRead`).  In such a statement `s` is the
state as fetch and advance left it, so `s.pc` is the advanced `pc` (R92, R94). -/

open Sys2Proof Sys2Proof.Machine

/-! ### Encoding -/

/-- R8, R72: the fields of a word are the bits the rules name. -/
def Obligations.FieldsAreTheNamedBits : Prop :=
  ∀ w : Word,
    (selField w).toNat = w.toNat / 4096 ∧ (xField w).val = w.toNat / 256 % 16 ∧
    (yField w).val = w.toNat / 16 % 16 ∧ (nField w).val = w.toNat % 16 ∧
    (kkField w).toNat = w.toNat % 256 ∧ (nnnField w).toNat = w.toNat % 4096

/-- R74, R80: words written out from the patterns, at least one for each of the sixteen primary
selectors, among them the three words of the source, decode to the instructions they stand for. -/
def Obligations.SampleWordsDecode : Prop :=
  decode 0x0000 = .instr .cls ∧ decode 0x1234 = .instr (.jp 0x234) ∧
  decode 0x2ABC = .instr (.call 0xABC) ∧ decode 0x332A = .instr (.seByte 3 0x2A) ∧
  decode 0x4B01 = .instr (.sneByte 11 0x01) ∧ decode 0x5120 = .instr (.seReg 1 2) ∧
  decode 0x6005 = .instr (.ldByte 0 0x05) ∧ decode 0x6103 = .instr (.ldByte 1 0x03) ∧
  decode 0x72FE = .instr (.addByte 2 0xFE) ∧ decode 0x8014 = .instr (.addReg 0 1) ∧
  decode 0x8008 = .undefinedWord ∧ decode 0x9AB0 = .instr (.sneReg 10 11) ∧
  decode 0xA2F0 = .instr (.ldI 0x2F0) ∧ decode 0xBF01 = .instr (.jpV0 0xF01) ∧
  decode 0xC30F = .instr (.rnd 3 0x0F) ∧ decode 0xD125 = .instr (.drw 1 2 5) ∧
  decode 0xE39E = .instr (.skp 3) ∧ decode 0xF455 = .instr (.ldMemVx 4)

/-- R83: encoding the canonical word of any instruction and decoding it gives the instruction back,
every operand at every value. -/
def Obligations.DecodeOfEncode : Prop := ∀ i : Instr, decode (encode i) = .instr i

/-- R74, R75: the decoder generated from the mask and match columns agrees on all 65536 words with
the selector algorithm. -/
def Obligations.TableAgreesWithSelectors : Prop := ∀ w : Word, decode w = decodeBySelectors w

/-- R74: the table has 34 rows, and the rows at two different places of it match no word in common. -/
def Obligations.OpcodeRowsAreDisjoint : Prop :=
  opcodeTable.length = 34 ∧
  opcodeTable.Pairwise fun r q => ∀ w : Word, ¬ (r.hit w = true ∧ q.hit w = true)

/-- R77: the undefined words, exactly. -/
def Obligations.UndefinedWordsExactly : Prop :=
  ∀ w : Word, decode w = .undefinedWord ↔
    (w.toNat / 4096 = 0x0 ∧ w.toNat % 16 ∉ [0x0, 0xE]) ∨
    (w.toNat / 4096 = 0x8 ∧ w.toNat % 16 ∈ [0x8, 0x9, 0xA, 0xB, 0xC, 0xD, 0xF]) ∨
    (w.toNat / 4096 = 0xE ∧ w.toNat % 16 ∉ [0x1, 0xE]) ∨
    (w.toNat / 4096 = 0xF ∧
      w.toNat % 256 ∉ [0x07, 0x0A, 0x15, 0x18, 0x1E, 0x29, 0x33, 0x55, 0x65])

/-- R76, R83: a word that decodes to an instruction differs from the instruction's canonical word at
most in the ignored bits of its row, where the canonical word has the canonical bits. -/
def Obligations.AliasDiffersInIgnoredBitsOnly : Prop :=
  ∀ w : Word, ∀ r ∈ opcodeTable, ∀ i : Instr, r.hit w = true → decode w = .instr i →
    encode i = (w &&& ~~~r.ignored) ||| (r.canonical &&& r.ignored)

/-! ### The cycle -/

/-- R90 (with R91, R92, R94 to R98): one cycle.  A halted core does nothing; an instruction that
raises no fault is followed by the tick; one that raises a fault leaves everything but `fault` as it
was before the cycle; an undefined word executes nothing.  That the tick also drops the cycle's entry
from `inputs` and counts it in `cycles` is the model's choice (log 1), as is the stepping from the
list of inputs. -/
def Obligations.StepRunsTheDecodedInstruction : Prop :=
  ∀ s : State,
    (s.Halted → step s = .next s) ∧
    (s.Running → decode s.fetchWord = .undefinedWord → step s = .next s.fetched.ticked) ∧
    (∀ i t, s.About i → exec i s.fetched = .next t →
      (t.Running → step s = .next t.ticked) ∧
      (t.Halted → step s = .next { s with fault := t.fault }))

/-- R52, R54: fetch is two byte reads at `pc` and `pc + 1`, high byte first, whatever the parity of
`pc`, and wraps at the top of memory; R50: every address counts modulo 4096. -/
def Obligations.FetchIsBigEndianAndWraps : Prop :=
  ∀ s : State,
    s.fetchWord.toNat = (s.memRead s.pc.toNat).toNat * 256 + (s.memRead (s.pc.toNat + 1)).toNat ∧
    (∀ a, s.memRead a = s.memRead (a % 4096)) ∧
    (s.pc = 0xFFF →
      s.fetchWord.toNat = (s.memRead 0xFFF).toNat * 256 + (s.memRead 0x000).toNat)

/-- R52, R63: a word placed at `pc` is the word the next cycle fetches, from any state of the
invariant.  Placing a word (`State.withFetchWord`) is the model's choice and stands for loading a
program (log 7): no instruction and, by R40, no host writes memory so.  The invariant includes the
canonical form of memory, which is the model's choice too (log 3). -/
def Obligations.PlacedWordIsFetched : Prop :=
  ∀ (s : State) (w : Word), s.Inv →
    (s.withFetchWord 16 w.toNat).fetchWord = w ∧ (s.withFetchWord 16 w.toNat).Inv ∧
    ∀ a, a % 4096 ≠ s.pc.toNat → a % 4096 ≠ (s.pc.toNat + 1) % 4096 →
      (s.withFetchWord 16 w.toNat).memRead a = s.memRead a

/-- R95: the cycle of an undefined word latches `ir`, advances `pc` by 2, ticks the timers, and
changes nothing else. -/
def Obligations.UndefinedWordIsNoOp : Prop :=
  ∀ (s : State) (keys : Word) (rnd : Byte), s.Running → decode s.fetchWord = .undefinedWord →
    ∃ t, cycle keys rnd s = .next t ∧ t.ir = s.fetchWord ∧
      t.pc.toNat = (s.pc.toNat + 2) % 4096 ∧
      t.dt.toNat = s.dt.toNat - 1 ∧ t.st.toNat = s.st.toNat - 1 ∧
      KeepsRegs s t ∧ t.I = s.I ∧ t.sp = s.sp ∧ t.STK = s.STK ∧ t.FB = s.FB ∧ KeepsMem s t ∧
      t.Running

/-- R97: a cycle of a halted core is the identity, for any inputs. -/
def Obligations.HaltedCycleIsIdentity : Prop :=
  ∀ s : State, s.Halted →
    step s = .next s ∧ ∀ (keys : Word) (rnd : Byte), cycle keys rnd s = .next s

/-- R174: from the cycle after a fault onward nothing changes, for any number of cycles, and the
host's view is frozen. -/
def Obligations.HaltedForEver : Prop :=
  ∀ (s t : State) (k : Nat), s.Running → step s = .next t → t.Halted →
    core.run k t = .next t ∧ core.run (k + 1) s = .next t ∧
      t.hostView = { s.hostView with fault := t.fault.code } ∧ t.fault.code ≠ 0

/-- R172, R173: the complete list of faults, and that each is precise.  A cycle of a running core
leaves code 1 exactly when it executes `CALL` with sixteen calls open, code 2 exactly when it executes
`RET` with none, and no other code; a cycle that faults changes `fault` alone (so the timers do not
tick and `pc` still addresses the instruction). -/
def Obligations.OnlyCallAndRetFaultPrecisely : Prop :=
  ∀ s t : State, s.Running → step s = .next t →
    (t.fault.code = 1 ↔ (∃ nnn, decode s.fetchWord = .instr (.call nnn)) ∧ s.sp = 16) ∧
    (t.fault.code = 2 ↔ decode s.fetchWord = .instr .ret ∧ s.sp = 0) ∧
    t.fault.code ≠ 3 ∧
    (t.Halted → t = { s with fault := t.fault })

/-- R177, R204, R97, R175: every cycle of every state answers a next state, and so does every
instruction: no data, no word and no address leaves a cycle without a result.  A fault ends a run only
in the sense of R196: the cycle that faults, and every cycle of the halted core, still answers a state
(R97, R175).  That the `exec` of a faulting `CALL` or `RET` answers next too, and not one of the model's
own faults, is the model's choice (log 5). -/
def Obligations.EveryCycleAnswersANextState : Prop :=
  (∀ (i : Instr) (s : State), ∃ t, exec i s = .next t) ∧
  (∀ s : State, ∃ t, step s = .next t) ∧
  (∀ (keys : Word) (rnd : Byte) (s : State), ∃ t, cycle keys rnd s = .next t)

/-- R96: in every cycle that does not fault each timer goes down by one and stops at zero, after
execution: a timer the instruction wrote goes down from the value written. -/
def Obligations.TimersTickOncePerCycle : Prop :=
  ∀ s t : State, s.Running → step s = .next t → t.Running →
    t.dt.toNat = (match decode s.fetchWord with
      | .instr (.ldDtVx x) => (s.reg x).toNat
      | _ => s.dt.toNat) - 1 ∧
    t.st.toNat = (match decode s.fetchWord with
      | .instr (.ldStVx x) => (s.reg x).toNat
      | _ => s.st.toNat) - 1

/-- R24: where `pc` stands after a cycle, for every instruction (`State.pcAfter` is the rule's
table), every undefined word, and a cycle that faults. -/
def Obligations.PcAfterEveryInstruction : Prop :=
  ∀ s t : State, s.Running → step s = .next t →
    (∀ i, decode s.fetchWord = .instr i → t.Running → t.pc.toNat = s.pcAfter i) ∧
    (decode s.fetchWord = .undefinedWord → t.pc.toNat = (s.pc.toNat + 2) % 4096) ∧
    (t.Halted → t.pc = s.pc)

/-- R100: `k` straight-line cycles advance `pc` by exactly `2 * k` modulo 4096, without a fault. -/
def Obligations.StraightLineAdvancesByTwo : Prop :=
  ∀ (k : Nat) (s : State), s.Inv → s.Running → StraightLine k s →
    ∃ t, core.run k s = .next t ∧ t.Running ∧ t.pc.toNat = (s.pc.toNat + 2 * k) % 4096

/-- R43: every cycle keeps the invariant: `pc` and every stack entry at most 0xFFF, and memory
canonical within its 4096 bytes.  (Memory's canonical form is the model's, log 3.) -/
def Obligations.InvariantIsKept : Prop :=
  ∀ s t : State, s.Inv → step s = .next t → t.Inv

/-- R43: the invariant holds after reset, and after `Reset` with any image and any glyph table.
(Memory's canonical form is the model's, log 3.) -/
def Obligations.ResetMeetsTheInvariant : Prop :=
  State.reset.Inv ∧
  ∀ (font : Vector Byte 80) (image : List Byte) (s : State), resetWith font image = .ok s → s.Inv

/-! ### Inputs, and what carries no information -/

/-- R99: for a word that is not `SKP`, `SKNP`, `LD Vx, K` a cycle does not depend on `keys`; for one
that is not `RND` it does not depend on `rnd`. -/
def Obligations.InputsMatterOnlyWhereRead : Prop :=
  ∀ (s : State) (keys keys' : Word) (rnd rnd' : Byte),
    ((∀ x, decode s.fetchWord ≠ .instr (.skp x) ∧ decode s.fetchWord ≠ .instr (.sknp x) ∧
        decode s.fetchWord ≠ .instr (.ldVxK x)) →
      cycle keys rnd s = cycle keys' rnd s) ∧
    ((∀ x kk, decode s.fetchWord ≠ .instr (.rnd x kk)) →
      cycle keys rnd s = cycle keys rnd' s)

/-- R29: `ir` carries no information from one cycle to the next: a cycle that does not fault gives
the same state whatever it held. -/
def Obligations.IrCarriesNoInformation : Prop :=
  ∀ (s t : State) (w : Word), s.Running → step s = .next t → t.Running →
    step { s with ir := w } = .next t

/-- R42, R166: no instruction reads `st`: two states that differ in `st` alone still differ in `st`
alone after a cycle, with any inputs. -/
def Obligations.SoundTimerIsUnreadable : Prop :=
  ∀ (s : State) (v : Byte) (keys : Word) (rnd : Byte),
    ∃ t u, cycle keys rnd s = .next t ∧ cycle keys rnd { s with st := v } = .next u ∧
      { u with st := t.st } = t

/-- R31: stack entries at or above `sp` are never read: two states that agree but for such entries
agree but for such entries after a cycle. -/
def Obligations.StaleStackEntriesAreUnread : Prop :=
  ∀ (s : State) (stk : Vector Word 16) (keys : Word) (rnd : Byte),
    (∀ i : Fin 16, i.val < s.sp.val → stk[i] = s.STK[i]) →
    ∃ t u, cycle keys rnd s = .next t ∧ cycle keys rnd { s with STK := stk } = .next u ∧
      { u with STK := t.STK } = t ∧ ∀ i : Fin 16, i.val < t.sp.val → u.STK[i] = t.STK[i]

/-! ### Who writes what -/

/-- R22, R23: in a cycle only the registers that R23 lists for the instruction can change; so `VF`
changes only by an instruction that writes a flag or names it. -/
def Obligations.RegistersWrittenAreThoseListed : Prop :=
  ∀ s t : State, s.Running → step s = .next t →
    ∀ r, t.reg r ≠ s.reg r → ∃ i, decode s.fetchWord = .instr i ∧ writesReg i r

/-- R26, R27, R31, R32, R55: `I` is written only by `LD I`, `LD F` and `ADD I`; `sp` and the stack
only by `CALL` and `RET`; memory only by `LD B` and `LD [I], Vx`; the framebuffer only by `CLS` and
`DRW`. -/
def Obligations.SpecialStateHasFewWriters : Prop :=
  ∀ s t : State, s.Running → step s = .next t →
    (t.I ≠ s.I → ∃ i, decode s.fetchWord = .instr i ∧
      ((∃ nnn, i = .ldI nnn) ∨ (∃ x, i = .ldF x) ∨ (∃ x, i = .addI x))) ∧
    (t.sp ≠ s.sp ∨ t.STK ≠ s.STK → ∃ i, decode s.fetchWord = .instr i ∧
      (i = .ret ∨ ∃ nnn, i = .call nnn)) ∧
    ((∃ a, t.memRead a ≠ s.memRead a) → ∃ i, decode s.fetchWord = .instr i ∧
      ((∃ x, i = .ldB x) ∨ ∃ x, i = .ldMemVx x)) ∧
    (t.FB ≠ s.FB → ∃ i, decode s.fetchWord = .instr i ∧
      (i = .cls ∨ ∃ x y n, i = .drw x y n))

/-! ### Control transfer (41_flow.md) -/

/-- R110: `RET`. -/
def Obligations.RetPopsTheReturnAddress : Prop :=
  DecodesTo 0xF00F 0x000E (fun _ => .ret) ∧
  (∀ (s : State) (isOpen : 0 < s.sp.val), ∃ t, exec .ret s = .next t ∧
    t.sp.val = s.sp.val - 1 ∧
    t.pc.toNat = (s.STK[s.sp.val - 1]'(by omega)).toNat % 4096 ∧
    OnlyPcStack (fun _ => False) s t) ∧
  (∀ s : State, s.About .ret → s.sp = 0 → step s = .next { s with fault := .stackUnderflow })

/-- R111: `JP nnn`. -/
def Obligations.JpSetsPc : Prop :=
  DecodesTo 0xF000 0x1000 (fun w => .jp (nnnField w)) ∧
  ∀ (nnn : Addr) (s : State), ∃ t, exec (.jp nnn) s = .next t ∧ t.pc.toNat = nnn.toNat ∧
    OnlyPc s t

/-- R112: `CALL nnn`. -/
def Obligations.CallPushesTheReturnAddress : Prop :=
  DecodesTo 0xF000 0x2000 (fun w => .call (nnnField w)) ∧
  (∀ (nnn : Addr) (s : State) (free : s.sp.val < 16), ∃ t, exec (.call nnn) s = .next t ∧
    t.STK[s.sp.val]'free = s.pc ∧ t.sp.val = s.sp.val + 1 ∧ t.pc.toNat = nnn.toNat ∧
    OnlyPcStack (fun i => i.val = s.sp.val) s t) ∧
  (∀ (nnn : Addr) (s : State), s.About (.call nnn) → s.sp = 16 →
    step s = .next { s with fault := .stackOverflow })

/-- R113 to R117: the four skips of 41_flow.md. -/
def Obligations.SkipsTestRegisters : Prop :=
  DecodesTo 0xF000 0x3000 (fun w => .seByte (xField w) (kkField w)) ∧
  DecodesTo 0xF000 0x4000 (fun w => .sneByte (xField w) (kkField w)) ∧
  DecodesTo 0xF000 0x5000 (fun w => .seReg (xField w) (yField w)) ∧
  DecodesTo 0xF000 0x9000 (fun w => .sneReg (xField w) (yField w)) ∧
  ∀ (x y : Reg) (kk : Byte) (s : State),
    (∃ t, exec (.seByte x kk) s = .next t ∧ OnlyPc s t ∧
      t.pc.toNat = if s.reg x = kk then (s.pc.toNat + 2) % 4096 else s.pc.toNat) ∧
    (∃ t, exec (.sneByte x kk) s = .next t ∧ OnlyPc s t ∧
      t.pc.toNat = if s.reg x ≠ kk then (s.pc.toNat + 2) % 4096 else s.pc.toNat) ∧
    (∃ t, exec (.seReg x y) s = .next t ∧ OnlyPc s t ∧
      t.pc.toNat = if s.reg x = s.reg y then (s.pc.toNat + 2) % 4096 else s.pc.toNat) ∧
    (∃ t, exec (.sneReg x y) s = .next t ∧ OnlyPc s t ∧
      t.pc.toNat = if s.reg x ≠ s.reg y then (s.pc.toNat + 2) % 4096 else s.pc.toNat)

/-- R118: `JP V0, nnn`. -/
def Obligations.JpV0AddsTheOffset : Prop :=
  DecodesTo 0xF000 0xB000 (fun w => .jpV0 (nnnField w)) ∧
  ∀ (nnn : Addr) (s : State), ∃ t, exec (.jpV0 nnn) s = .next t ∧
    t.pc.toNat = ((s.reg 0).toNat + nnn.toNat) % 4096 ∧ OnlyPc s t

/-- R110, R112: a `RET` after a `CALL` comes back to the address after the call, with the stack
pointer as it was. -/
def Obligations.RetUndoesCall : Prop :=
  ∀ (nnn : Addr) (s t : State), s.pc.toNat < 4096 → s.sp.val < 16 →
    exec (.call nnn) s = .next t →
    ∃ u, exec .ret t = .next u ∧ u.pc = s.pc ∧ u.sp = s.sp ∧
      OnlyPcStack (fun i => i.val = s.sp.val) s u

/-- R197: the idle loop `JP pc`: the run stays ended, and a cycle touches only the timers and
`ir`. -/
def Obligations.IdleLoopStaysEnded : Prop :=
  ∀ s : State, s.Inv → s.Ended → ∃ t, step s = .next t ∧ t.Ended ∧ t.ir = s.fetchWord ∧
    t.pc = s.pc ∧ KeepsRegs s t ∧ t.I = s.I ∧ t.sp = s.sp ∧ t.STK = s.STK ∧ t.MEM = s.MEM ∧
    t.FB = s.FB ∧ t.dt.toNat = s.dt.toNat - 1 ∧ t.st.toNat = s.st.toNat - 1

/-! ### Load, arithmetic, logic, shift, random (42_alu.md) -/

/-- R121, R123: the register loads. -/
def Obligations.RegisterLoadsCopy : Prop :=
  DecodesTo 0xF000 0x6000 (fun w => .ldByte (xField w) (kkField w)) ∧
  DecodesTo 0xF00F 0x8000 (fun w => .ldReg (xField w) (yField w)) ∧
  ∀ (x y : Reg) (kk : Byte) (s : State),
    (∃ t, exec (.ldByte x kk) s = .next t ∧ t.reg x = kk ∧ OnlyRegs (fun r => r = x) s t) ∧
    (∃ t, exec (.ldReg x y) s = .next t ∧ t.reg x = s.reg y ∧ OnlyRegs (fun r => r = x) s t)

/-- R122: `ADD Vx, kk` wraps and writes no flag. -/
def Obligations.AddByteWrapsWithoutFlag : Prop :=
  DecodesTo 0xF000 0x7000 (fun w => .addByte (xField w) (kkField w)) ∧
  ∀ (x : Reg) (kk : Byte) (s : State), ∃ t, exec (.addByte x kk) s = .next t ∧
    (t.reg x).toNat = ((s.reg x).toNat + kk.toNat) % 256 ∧ OnlyRegs (fun r => r = x) s t

/-- R124, R125, R126: the bitwise instructions write no flag. -/
def Obligations.LogicIsBitwiseWithoutFlag : Prop :=
  DecodesTo 0xF00F 0x8001 (fun w => .orReg (xField w) (yField w)) ∧
  DecodesTo 0xF00F 0x8002 (fun w => .andReg (xField w) (yField w)) ∧
  DecodesTo 0xF00F 0x8003 (fun w => .xorReg (xField w) (yField w)) ∧
  ∀ (x y : Reg) (s : State),
    (∃ t, exec (.orReg x y) s = .next t ∧ OnlyRegs (fun r => r = x) s t ∧
      ∀ k < 8, (t.reg x).getLsbD k = ((s.reg x).getLsbD k || (s.reg y).getLsbD k)) ∧
    (∃ t, exec (.andReg x y) s = .next t ∧ OnlyRegs (fun r => r = x) s t ∧
      ∀ k < 8, (t.reg x).getLsbD k = ((s.reg x).getLsbD k && (s.reg y).getLsbD k)) ∧
    (∃ t, exec (.xorReg x y) s = .next t ∧ OnlyRegs (fun r => r = x) s t ∧
      ∀ k < 8, (t.reg x).getLsbD k = ((s.reg x).getLsbD k != (s.reg y).getLsbD k))

/-- R127 (with R120): `ADD Vx, Vy`: the sum modulo 256, and the carry in `VF` unless the sum itself
goes there. -/
def Obligations.AddRegSetsCarry : Prop :=
  DecodesTo 0xF00F 0x8004 (fun w => .addReg (xField w) (yField w)) ∧
  ∀ (x y : Reg) (s : State), ∃ t, exec (.addReg x y) s = .next t ∧
    (t.reg x).toNat = ((s.reg x).toNat + (s.reg y).toNat) % 256 ∧
    (x ≠ 15 → (t.reg 15).toNat = if (s.reg x).toNat + (s.reg y).toNat > 255 then 1 else 0) ∧
    OnlyRegs (fun r => r = x ∨ r = 15) s t

/-- R128, R130 (with R120): the subtractions: `VF` is 1 exactly when the minuend is strictly
greater, unless the difference itself goes there; the destination is `V[x]` in both. -/
def Obligations.SubtractionsSetStrictlyGreater : Prop :=
  DecodesTo 0xF00F 0x8005 (fun w => .subReg (xField w) (yField w)) ∧
  DecodesTo 0xF00F 0x8007 (fun w => .subnReg (xField w) (yField w)) ∧
  ∀ (x y : Reg) (s : State),
    (∃ t, exec (.subReg x y) s = .next t ∧ OnlyRegs (fun r => r = x ∨ r = 15) s t ∧
      (t.reg x).toNat = ((s.reg x).toNat + 256 - (s.reg y).toNat) % 256 ∧
      (x ≠ 15 → (t.reg 15).toNat = if (s.reg x).toNat > (s.reg y).toNat then 1 else 0)) ∧
    (∃ t, exec (.subnReg x y) s = .next t ∧ OnlyRegs (fun r => r = x ∨ r = 15) s t ∧
      (t.reg x).toNat = ((s.reg y).toNat + 256 - (s.reg x).toNat) % 256 ∧
      (x ≠ 15 → (t.reg 15).toNat = if (s.reg y).toNat > (s.reg x).toNat then 1 else 0))

/-- R129, R131 (with R120): the shifts: one bit, logical, the bit shifted out in `VF` unless the
result itself goes there. -/
def Obligations.ShiftsDropOneBitIntoTheFlag : Prop :=
  DecodesTo 0xF00F 0x8006 (fun w => .shr (xField w)) ∧
  DecodesTo 0xF00F 0x800E (fun w => .shl (xField w)) ∧
  ∀ (x : Reg) (s : State),
    (∃ t, exec (.shr x) s = .next t ∧ OnlyRegs (fun r => r = x ∨ r = 15) s t ∧
      (t.reg x).toNat = (s.reg x).toNat / 2 ∧
      (x ≠ 15 → (t.reg 15).toNat = (s.reg x).toNat % 2)) ∧
    (∃ t, exec (.shl x) s = .next t ∧ OnlyRegs (fun r => r = x ∨ r = 15) s t ∧
      (t.reg x).toNat = (s.reg x).toNat * 2 % 256 ∧
      (x ≠ 15 → (t.reg 15).toNat = (s.reg x).toNat / 128))

/-- R132: `RND Vx, kk`: the cycle's random byte under the mask, for every random byte.  That the host's
byte stands at the head of `inputs` is the model's choice (log 1). -/
def Obligations.RndMasksTheRandomByte : Prop :=
  DecodesTo 0xF000 0xC000 (fun w => .rnd (xField w) (kkField w)) ∧
  ∀ (x : Reg) (kk : Byte) (s : State),
    (∃ t, exec (.rnd x kk) s = .next t ∧ t.reg x = s.rnd &&& kk ∧ t.reg x &&& ~~~kk = 0 ∧
      OnlyRegs (fun r => r = x) s t) ∧
    ∀ (keys : Word) (byte : Byte) (later : List Inputs),
      ∃ t, exec (.rnd x kk) { s with inputs := ⟨keys, byte⟩ :: later } = .next t ∧
        t.reg x = byte &&& kk

/-! ### Index register, loads and stores (43_index_memory.md) -/

/-- R140, R141, R142: the three writers of `I`. -/
def Obligations.IndexInstructionsWriteOnlyI : Prop :=
  DecodesTo 0xF000 0xA000 (fun w => .ldI (nnnField w)) ∧
  DecodesTo 0xF0FF 0xF01E (fun w => .addI (xField w)) ∧
  DecodesTo 0xF0FF 0xF029 (fun w => .ldF (xField w)) ∧
  ∀ (x : Reg) (nnn : Addr) (s : State),
    (∃ t, exec (.ldI nnn) s = .next t ∧ t.I.toNat = nnn.toNat ∧ OnlyIndex s t) ∧
    (∃ t, exec (.addI x) s = .next t ∧ t.I.toNat = (s.I.toNat + (s.reg x).toNat) % 65536 ∧
      OnlyIndex s t) ∧
    (∃ t, exec (.ldF x) s = .next t ∧ t.I.toNat = 0x050 + 5 * ((s.reg x).toNat % 16) ∧
      OnlyIndex s t)

/-- R143: `LD B, Vx`: three digits at `I`, `I + 1`, `I + 2`, each address modulo 4096 (R65), and no
other byte. -/
def Obligations.BcdStoresThreeDigits : Prop :=
  DecodesTo 0xF0FF 0xF033 (fun w => .ldB (xField w)) ∧
  ∀ (x : Reg) (s : State), ∃ t, exec (.ldB x) s = .next t ∧
    (Memory.wf s.MEM = true →
      (t.memRead s.I.toNat).toNat = (s.reg x).toNat / 100 ∧
      (t.memRead (s.I.toNat + 1)).toNat = (s.reg x).toNat / 10 % 10 ∧
      (t.memRead (s.I.toNat + 2)).toNat = (s.reg x).toNat % 10) ∧
    OnlyMem (fun a => ∃ k < 3, a % 4096 = (s.I.toNat + k) % 4096) s t

/-- R145, R144: `LD [I], Vx`: `V[0]..V[x]` at `I` upward, each address modulo 4096 (R65), no other
byte, `I` unchanged. -/
def Obligations.RegisterDumpStoresTheRange : Prop :=
  DecodesTo 0xF0FF 0xF055 (fun w => .ldMemVx (xField w)) ∧
  ∀ (x : Reg) (s : State), ∃ t, exec (.ldMemVx x) s = .next t ∧
    (Memory.wf s.MEM = true → ∀ i, i ≤ x → t.memRead (s.I.toNat + i.val) = s.reg i) ∧
    OnlyMem (fun a => ∃ i, i ≤ x ∧ a % 4096 = (s.I.toNat + i.val) % 4096) s t

/-- R146, R144: `LD Vx, [I]`: `V[0]..V[x]` from `I` upward, no other register, `I` and memory
unchanged. -/
def Obligations.RegisterLoadReadsTheRange : Prop :=
  DecodesTo 0xF0FF 0xF065 (fun w => .ldVxMem (xField w)) ∧
  ∀ (x : Reg) (s : State), ∃ t, exec (.ldVxMem x) s = .next t ∧
    (∀ i, i ≤ x → t.reg i = s.memRead (s.I.toNat + i.val)) ∧ OnlyRegs (fun r => r ≤ x) s t

/-- R146 (the round trip of the source): after a dump, a load with the same `I` and `x` gives the
registers back, whatever the registers held in between, if nothing wrote the bytes. -/
def Obligations.DumpThenLoadRestores : Prop :=
  ∀ (x : Reg) (s t u v : State), Memory.wf s.MEM = true → exec (.ldMemVx x) s = .next t →
    u.I = s.I → (∀ i, i ≤ x → u.memRead (s.I.toNat + i.val) = t.memRead (s.I.toNat + i.val)) →
    exec (.ldVxMem x) u = .next v → ∀ i, i ≤ x → v.reg i = s.reg i

/-- R63, R199: a store over the word the next cycle fetches is seen by that fetch. -/
def Obligations.StoreIsSeenByTheNextFetch : Prop :=
  ∀ (x : Reg) (s t : State), s.Inv → s.About (.ldMemVx x) → step s = .next t →
    ∀ i j : Reg, i ≤ x → j ≤ x →
      (s.I.toNat + i.val) % 4096 = t.pc.toNat →
      (s.I.toNat + j.val) % 4096 = (t.pc.toNat + 1) % 4096 →
      t.fetchWord.toNat = (s.reg i).toNat * 256 + (s.reg j).toNat

/-! ### Display (44_display.md) -/

/-- R150: `CLS` turns every cell off and touches nothing else, `VF` included. -/
def Obligations.ClsTurnsEveryCellOff : Prop :=
  DecodesTo 0xF00F 0x0000 (fun _ => .cls) ∧
  ∀ s : State, ∃ t, exec .cls s = .next t ∧ (∀ yy xx, Framebuffer.cell t.FB yy xx = false) ∧
    OnlyScreen (fun _ => False) s t

/-- R152, R153 (c): `DRW Vx, Vy, n`: the framebuffer exclusive-ored with the clipped sprite, `VF` 1
exactly when the two meet, and nothing else.  The position is read before `VF` is written. -/
def Obligations.DrwIsExclusiveOrWithCollision : Prop :=
  DecodesTo 0xF000 0xD000 (fun w => .drw (xField w) (yField w) (nField w)) ∧
  ∀ (x y : Reg) (n : RowCount) (s : State), ∃ t, exec (.drw x y n) s = .next t ∧
    (∀ yy < 32, ∀ xx < 64, Framebuffer.cell t.FB yy xx =
      (Framebuffer.cell s.FB yy xx != s.spriteCovers x y n yy xx)) ∧
    ((∃ yy < 32, ∃ xx < 64, Framebuffer.cell s.FB yy xx = true ∧
        s.spriteCovers x y n yy xx = true) → t.reg 15 = 1) ∧
    ((∀ yy < 32, ∀ xx < 64, Framebuffer.cell s.FB yy xx = true →
        s.spriteCovers x y n yy xx = false) → t.reg 15 = 0) ∧
    OnlyScreen (fun r => r = 15) s t

/-- R153 (a): drawing the same sprite twice at the same position gives the framebuffer back, and the
second draw collides if the first turned a cell on. -/
def Obligations.DrawingTwiceRestores : Prop :=
  ∀ (x y : Reg) (n : RowCount) (s t u v : State), exec (.drw x y n) s = .next t →
    u.FB = t.FB → u.reg x = s.reg x → u.reg y = s.reg y → u.I = s.I → KeepsMem s u →
    exec (.drw x y n) u = .next v →
    v.FB = s.FB ∧
      ((∃ yy < 32, ∃ xx < 64, Framebuffer.cell s.FB yy xx = false ∧
        Framebuffer.cell t.FB yy xx = true) → v.reg 15 = 1)

/-- R153 (b): the cells a `DRW` can change lie in the eight columns and `n` rows from its start. -/
def Obligations.DrwChangesOnlyItsRectangle : Prop :=
  ∀ (x y : Reg) (n : RowCount) (s t : State), exec (.drw x y n) s = .next t →
    ∀ yy < 32, ∀ xx < 64, Framebuffer.cell t.FB yy xx ≠ Framebuffer.cell s.FB yy xx →
      (s.reg y).toNat % 32 ≤ yy ∧ yy + 1 ≤ (s.reg y).toNat % 32 + n.val ∧
      (s.reg x).toNat % 64 ≤ xx ∧ xx ≤ (s.reg x).toNat % 64 + 7

/-! ### Keypad and timers (45_keypad_timers.md) -/

/-- R160, R161 (with R35): the key skips test the level, in this cycle's sample, of the key that the
low four bits select.  That the sample is the one at the head of `inputs` is the model's choice
(log 1). -/
def Obligations.KeySkipsTestTheSample : Prop :=
  DecodesTo 0xF00F 0xE00E (fun w => .skp (xField w)) ∧
  DecodesTo 0xF00F 0xE001 (fun w => .sknp (xField w)) ∧
  (∀ (x : Reg) (s : State),
    (∃ t, exec (.skp x) s = .next t ∧ OnlyPc s t ∧
      t.pc.toNat = if s.keys.getLsbD ((s.reg x).toNat % 16) = true
        then (s.pc.toNat + 2) % 4096 else s.pc.toNat) ∧
    (∃ t, exec (.sknp x) s = .next t ∧ OnlyPc s t ∧
      t.pc.toNat = if s.keys.getLsbD ((s.reg x).toNat % 16) = false
        then (s.pc.toNat + 2) % 4096 else s.pc.toNat)) ∧
  ∀ (s : State) (keys : Word) (rnd : Byte) (later : List Inputs),
    State.keys { s with inputs := ⟨keys, rnd⟩ :: later } = keys

/-- R162, R164, R165 (with R96): the timer instructions, and that the tick of their own cycle comes
after them. -/
def Obligations.TimerInstructionsMoveTheTimers : Prop :=
  DecodesTo 0xF0FF 0xF007 (fun w => .ldVxDt (xField w)) ∧
  DecodesTo 0xF0FF 0xF015 (fun w => .ldDtVx (xField w)) ∧
  DecodesTo 0xF0FF 0xF018 (fun w => .ldStVx (xField w)) ∧
  ∀ (x : Reg) (s : State),
    (∃ t, exec (.ldVxDt x) s = .next t ∧ t.reg x = s.dt ∧ OnlyRegs (fun r => r = x) s t) ∧
    (∃ t, exec (.ldDtVx x) s = .next t ∧ t.dt = s.reg x ∧ t.st = s.st ∧ OnlyTimers s t) ∧
    (∃ t, exec (.ldStVx x) s = .next t ∧ t.st = s.reg x ∧ t.dt = s.dt ∧ OnlyTimers s t) ∧
    (s.About (.ldVxDt x) → ∃ t, step s = .next t ∧ t.reg x = s.dt ∧
      t.dt.toNat = s.dt.toNat - 1 ∧ t.st.toNat = s.st.toNat - 1) ∧
    (s.About (.ldDtVx x) → ∃ t, step s = .next t ∧ t.dt.toNat = (s.reg x).toNat - 1 ∧
      t.st.toNat = s.st.toNat - 1) ∧
    (s.About (.ldStVx x) → ∃ t, step s = .next t ∧ t.st.toNat = (s.reg x).toNat - 1 ∧
      t.dt.toNat = s.dt.toNat - 1)

/-- R163: `LD Vx, K`: with no key pressed `pc` goes back by 2 and nothing else changes, so the cycle
leaves `pc` where it was; with keys pressed the lowest one's number goes to `V[x]`. -/
def Obligations.KeyWaitStallsOrTakesTheLowestKey : Prop :=
  DecodesTo 0xF0FF 0xF00A (fun w => .ldVxK (xField w)) ∧
  (∀ (x : Reg) (s : State),
    (s.keys = 0 → ∃ t, exec (.ldVxK x) s = .next t ∧ OnlyPc s t ∧
      (t.pc.toNat + 2) % 4096 = s.pc.toNat % 4096 ∧ t.pc.toNat < 4096) ∧
    (s.keys ≠ 0 → ∃ t, exec (.ldVxK x) s = .next t ∧ OnlyRegs (fun r => r = x) s t ∧
      s.keys.getLsbD (t.reg x).toNat = true ∧
      ∀ j < (t.reg x).toNat, s.keys.getLsbD j = false)) ∧
  ∀ (x : Reg) (s : State), s.pc.toNat < 4096 → s.About (.ldVxK x) → s.keys = 0 →
    ∃ t, step s = .next t ∧ t.pc = s.pc ∧ KeepsRegs s t ∧ t.dt.toNat = s.dt.toNat - 1 ∧
      t.st.toNat = s.st.toNat - 1

/-- R163, R204: the key wait completes in the first cycle whose sample is not zero: after `k` samples
of zero `pc`, the registers and the wait are as they were while the timers count down, and the next
cycle takes the key.  That the samples stand in the list `inputs` is the model's choice (log 1). -/
def Obligations.KeyWaitEndsWithTheFirstKey : Prop :=
  ∀ (k : Nat) (x : Reg) (s : State) (idle : List Inputs) (keys : Word) (rnd : Byte)
      (later : List Inputs),
    s.Inv → s.About (.ldVxK x) → idle.length = k → (∀ i ∈ idle, i.keys = 0) → keys ≠ 0 →
    s.inputs = idle ++ ⟨keys, rnd⟩ :: later →
    (∃ t, core.run k s = .next t ∧ t.pc = s.pc ∧ KeepsRegs s t ∧ t.About (.ldVxK x) ∧
      t.dt.toNat = s.dt.toNat - k ∧ t.st.toNat = s.st.toNat - k) ∧
    ∃ u, core.run (k + 1) s = .next u ∧ u.pc.toNat = (s.pc.toNat + 2) % 4096 ∧
      keys.getLsbD (u.reg x).toNat = true ∧ (∀ j < (u.reg x).toNat, keys.getLsbD j = false) ∧
      (∀ r, r ≠ x → u.reg r = s.reg r) ∧ u.dt.toNat = s.dt.toNat - (k + 1)

/-! ### Reset (70_reset_and_hazards.md) -/

/-- R41: the reset values of every register, timer, stack entry and cell, and of memory with no image
(outside the glyph area, whose bytes are a parameter). -/
def Obligations.ResetValues : Prop :=
  (∀ r, State.reset.reg r = 0) ∧ State.reset.pc = 0x200 ∧ State.reset.I = 0 ∧
  State.reset.sp = 0 ∧ (∀ i : Fin 16, State.reset.STK[i] = 0) ∧ State.reset.dt = 0 ∧
  State.reset.st = 0 ∧ State.reset.ir = 0 ∧ State.reset.fault.code = 0 ∧
  (∀ yy xx, Framebuffer.cell State.reset.FB yy xx = false) ∧
  ∀ a < 4096, (a < 0x050 ∨ 0x0A0 ≤ a) → State.reset.memRead a = 0

/-- R41, R190, R191: `Reset(IMAGE)` with any glyph table and any image of at most 3584 bytes: every
register, timer, stack entry and cell zero, `pc` at 0x200, the image at 0x200, the glyph bytes at
0x050, zero in every other byte; a longer image is refused and gives no state. -/
def Obligations.ResetLoadsFontAndImage : Prop :=
  ∀ (font : Vector Byte 80) (image : List Byte),
    (3584 < image.length → resetWith font image = .error .imageTooLarge) ∧
    (image.length ≤ 3584 → ∃ s, resetWith font image = .ok s ∧
      (∀ r, s.reg r = 0) ∧ s.pc = 0x200 ∧ s.I = 0 ∧ s.sp = 0 ∧ (∀ i : Fin 16, s.STK[i] = 0) ∧
      s.dt = 0 ∧ s.st = 0 ∧ s.ir = 0 ∧ s.fault.code = 0 ∧
      (∀ yy xx, Framebuffer.cell s.FB yy xx = false) ∧
      (∀ i : Fin 80, s.memRead (0x050 + i.val) = font[i]) ∧
      (∀ i, (h : i < image.length) → s.memRead (0x200 + i) = image[i]) ∧
      (∀ a < 4096, a < 0x050 ∨ (0x0A0 ≤ a ∧ a < 0x200) ∨ 0x200 + image.length ≤ a →
        s.memRead a = 0))
end

