-- ==== Sys2Proof/Laws/Decode.lean ====
section
/-! SUPPORT. Laws of words: the three masks of the opcode map read the selectors of R75, and each
format of R71 gives back the fields it was built from. -/

namespace Sys2Proof

/-- The mask of a row without secondary selector reads `sel`. -/
theorem and_F000 (w : Word) : w &&& 0xF000 = selField w ++ 0#12 := by
  apply BitVec.eq_of_getLsbD_eq
  intro i hi
  interval_cases i <;>
    simp only [selField, BitVec.getLsbD_append, BitVec.getLsbD_extractLsb', BitVec.getLsbD_and] <;> simp

/-- The mask of a row with the low nibble as secondary selector reads `sel` and `op[3:0]`. -/
theorem and_F00F (w : Word) : w &&& 0xF00F = selField w ++ 0#8 ++ subField w := by
  apply BitVec.eq_of_getLsbD_eq
  intro i hi
  interval_cases i <;>
    simp only [selField, subField, BitVec.getLsbD_append, BitVec.getLsbD_extractLsb', BitVec.getLsbD_and] <;> simp

/-- The mask of a row with the low byte as secondary selector reads `sel` and `op[7:0]`. -/
theorem and_F0FF (w : Word) : w &&& 0xF0FF = selField w ++ 0#4 ++ kkField w := by
  apply BitVec.eq_of_getLsbD_eq
  intro i hi
  interval_cases i <;>
    simp only [selField, kkField, BitVec.getLsbD_append, BitVec.getLsbD_extractLsb', BitVec.getLsbD_and] <;> simp

/-- A word is its four nibbles. -/
theorem nibbles (w : Word) :
    w = selField w ++ BitVec.ofFin (w := 4) (xField w) ++ BitVec.ofFin (w := 4) (yField w) ++
      subField w := by
  apply BitVec.eq_of_getLsbD_eq
  intro i hi
  have x : BitVec.ofFin (w := 4) (xField w) = w.extractLsb' 8 4 := rfl
  have y : BitVec.ofFin (w := 4) (yField w) = w.extractLsb' 4 4 := rfl
  rw [x, y]
  interval_cases i <;>
    simp only [selField, subField, BitVec.getLsbD_append, BitVec.getLsbD_extractLsb'] <;> simp

/-! ### Fields of the formats -/

section formats
variable (sel low : BitVec 4) (x y : Reg) (kk : Byte) (nnn : Addr)

@[simp] theorem selField_formatA : selField (formatA sel nnn) = sel := by
  apply BitVec.eq_of_getLsbD_eq
  intro i hi
  interval_cases i <;>
    simp only [selField, formatA, BitVec.getLsbD_append, BitVec.getLsbD_extractLsb'] <;> simp

@[simp] theorem nnnField_formatA : nnnField (formatA sel nnn) = nnn := by
  apply BitVec.eq_of_getLsbD_eq
  intro i hi
  interval_cases i <;>
    simp only [nnnField, formatA, BitVec.getLsbD_append, BitVec.getLsbD_extractLsb'] <;> simp

@[simp] theorem selField_formatK : selField (formatK sel x kk) = sel := by
  apply BitVec.eq_of_getLsbD_eq
  intro i hi
  interval_cases i <;>
    simp only [selField, formatK, BitVec.getLsbD_append, BitVec.getLsbD_extractLsb'] <;> simp

@[simp] theorem kkField_formatK : kkField (formatK sel x kk) = kk := by
  apply BitVec.eq_of_getLsbD_eq
  intro i hi
  interval_cases i <;>
    simp only [kkField, formatK, BitVec.getLsbD_append, BitVec.getLsbD_extractLsb'] <;> simp

@[simp] theorem subField_formatK : subField (formatK sel x kk) = kk.extractLsb' 0 4 := by
  apply BitVec.eq_of_getLsbD_eq
  intro i hi
  interval_cases i <;>
    simp only [subField, formatK, BitVec.getLsbD_append, BitVec.getLsbD_extractLsb'] <;> simp

@[simp] theorem xField_formatK : xField (formatK sel x kk) = x := by
  have h : (formatK sel x kk).extractLsb' 8 4 = BitVec.ofFin (w := 4) x := by
    apply BitVec.eq_of_getLsbD_eq
    intro i hi
    interval_cases i <;>
    simp only [formatK, BitVec.getLsbD_append, BitVec.getLsbD_extractLsb'] <;> simp
  rw [xField, h]

@[simp] theorem selField_formatR : selField (formatR sel x y low) = sel := by
  apply BitVec.eq_of_getLsbD_eq
  intro i hi
  interval_cases i <;>
    simp only [selField, formatR, BitVec.getLsbD_append, BitVec.getLsbD_extractLsb'] <;> simp

@[simp] theorem subField_formatR : subField (formatR sel x y low) = low := by
  apply BitVec.eq_of_getLsbD_eq
  intro i hi
  interval_cases i <;>
    simp only [subField, formatR, BitVec.getLsbD_append, BitVec.getLsbD_extractLsb'] <;> simp

@[simp] theorem nField_formatR : nField (formatR sel x y low) = low.toFin :=
  congrArg BitVec.toFin (subField_formatR sel low x y)

@[simp] theorem xField_formatR : xField (formatR sel x y low) = x := by
  have h : (formatR sel x y low).extractLsb' 8 4 = BitVec.ofFin (w := 4) x := by
    apply BitVec.eq_of_getLsbD_eq
    intro i hi
    interval_cases i <;>
    simp only [formatR, BitVec.getLsbD_append, BitVec.getLsbD_extractLsb'] <;> simp
  rw [xField, h]

@[simp] theorem yField_formatR : yField (formatR sel x y low) = y := by
  have h : (formatR sel x y low).extractLsb' 4 4 = BitVec.ofFin (w := 4) y := by
    apply BitVec.eq_of_getLsbD_eq
    intro i hi
    interval_cases i <;>
    simp only [formatR, BitVec.getLsbD_append, BitVec.getLsbD_extractLsb'] <;> simp
  rw [yField, h]

end formats

end Sys2Proof
end

