-- ==== Sys2Proof/Laws/Memory.lean ====
section
/-! SUPPORT. Laws of main memory: a read after a write, the canonical form kept by every memory
operation, and equality of canonical memories by their reads. -/

namespace Sys2Proof.Machine

@[simp] theorem Memory.read_nil (a : Nat) : read [] a = unlisted a := rfl

theorem Memory.wfFrom_cons {lo a : Nat} {v : Byte} {m : Memory} :
    wfFrom lo ((a, v) :: m) = true ↔
      lo ≤ a ∧ a < 4096 ∧ v ≠ unlisted a ∧ wfFrom (a + 1) m = true := by
  simp [wfFrom, and_assoc]

theorem Memory.wfFrom_mono {lo hi : Nat} {m : Memory} (le : lo ≤ hi) (h : wfFrom hi m = true) :
    wfFrom lo m = true := by
  cases m with
  | nil => rfl
  | cons c m =>
    obtain ⟨a, v⟩ := c
    rw [wfFrom_cons] at h ⊢
    exact ⟨by omega, h.2⟩

/-- Below the first address a canonical memory can list, nothing is listed. -/
theorem Memory.read_below {m : Memory} : ∀ {lo a : Nat}, wfFrom lo m = true → a < lo →
    read m a = unlisted a := by
  induction m with
  | nil => intros; rfl
  | cons c m ih =>
    obtain ⟨b, v⟩ := c
    intro lo a h lt
    rw [wfFrom_cons] at h
    rw [read, if_neg (by omega)]
    exact ih h.2.2.2 (by omega)

theorem Memory.read_write_same {m : Memory} : ∀ {lo : Nat} (a : Nat) (v : Byte), wfFrom lo m = true →
    read (write m a v) a = v := by
  induction m with
  | nil =>
    intro lo a v _
    unfold write
    split <;> simp_all [read]
  | cons c m ih =>
    obtain ⟨b, u⟩ := c
    intro lo a v h
    rw [wfFrom_cons] at h
    unfold write
    split
    · split
      · rw [read, if_neg (by omega), read_below h.2.2.2 (by omega)]; simp_all
      · simp [read]
    · split
      · split
        · rw [read_below h.2.2.2 (by omega)]; simp_all
        · simp [read]
      · rw [read, if_neg (by omega)]; exact ih a v h.2.2.2

theorem Memory.read_write_other {m : Memory} {a c : Nat} (v : Byte) (ne : c ≠ a) :
    read (write m a v) c = read m c := by
  have ne' := Ne.symm ne
  induction m with
  | nil =>
    unfold write
    split <;> simp [read, ne']
  | cons d m ih =>
    obtain ⟨b, u⟩ := d
    unfold write
    split
    · split <;> simp [read, ne']
    · split
      · subst_vars
        split <;> simp [read, ne']
      · simp [read, ih]

theorem Memory.wfFrom_write {m : Memory} : ∀ {lo a : Nat} (v : Byte), wfFrom lo m = true → lo ≤ a →
    a < 4096 → wfFrom lo (write m a v) = true := by
  induction m with
  | nil =>
    intro lo a v _ le lt
    unfold write
    split
    · rfl
    · rw [wfFrom_cons]; exact ⟨le, lt, by assumption, rfl⟩
  | cons c m ih =>
    obtain ⟨b, u⟩ := c
    intro lo a v h le lt
    have h' := wfFrom_cons.mp h
    unfold write
    split
    · split
      · exact h
      · rw [wfFrom_cons]
        exact ⟨le, lt, by assumption, wfFrom_cons.mpr ⟨by omega, h'.2⟩⟩
    · split
      · split
        · exact wfFrom_mono (by omega) h'.2.2.2
        · subst_vars
          rw [wfFrom_cons]; exact ⟨le, lt, by assumption, h'.2.2.2⟩
      · rw [wfFrom_cons]
        exact ⟨h'.1, h'.2.1, h'.2.2.1, ih v h'.2.2.2 (by omega) lt⟩

/-- A write below 4096 keeps the canonical form. -/
theorem Memory.wf_write {m : Memory} {a : Nat} (v : Byte) (h : wf m = true) (lt : a < 4096) :
    wf (write m a v) = true := wfFrom_write v h (Nat.zero_le a) lt

/-- Consecutive writes that end at or below 4096 keep the canonical form. -/
theorem Memory.wf_writeBytes {vs : List Byte} : ∀ {m : Memory} {a : Nat}, wf m = true →
    a + vs.length ≤ 4096 → wf (writeBytes m a vs) = true := by
  induction vs with
  | nil => intro m a h _; exact h
  | cons v vs ih =>
    intro m a h le
    rw [List.length_cons] at le
    exact ih (wf_write v h (by omega)) (by omega)

/-- Canonical memories that read alike are equal. -/
theorem Memory.ext_of_read {m : Memory} : ∀ {n : Memory} {lo : Nat}, wfFrom lo m = true →
    wfFrom lo n = true → (∀ a, read m a = read n a) → m = n := by
  induction m with
  | nil =>
    intro n lo _ hn same
    cases n with
    | nil => rfl
    | cons c n =>
      obtain ⟨b, v⟩ := c
      exact absurd (same b) (by simpa [read] using (wfFrom_cons.mp hn).2.2.1.symm)
  | cons c m ih =>
    obtain ⟨a, v⟩ := c
    intro n lo hm hn same
    have hm' := wfFrom_cons.mp hm
    cases n with
    | nil => exact absurd (same a) (by simpa [read] using hm'.2.2.1)
    | cons d n =>
      obtain ⟨b, u⟩ := d
      have hn' := wfFrom_cons.mp hn
      have eq : a = b := by
        rcases Nat.lt_trichotomy a b with lt | eq | gt
        · have := same a
          rw [read, if_pos rfl, read, if_neg (by omega), read_below hn'.2.2.2 (by omega)] at this
          exact absurd this hm'.2.2.1
        · exact eq
        · have := same b
          rw [read, if_neg (by omega), read_below hm'.2.2.2 (by omega), read, if_pos rfl] at this
          exact absurd this.symm hn'.2.2.1
      subst eq
      have vu : v = u := by simpa [read] using same a
      subst vu
      have tails : ∀ c, read m c = read n c := by
        intro c
        by_cases h : a = c
        · subst h
          rw [read_below hm'.2.2.2 (by omega), read_below hn'.2.2.2 (by omega)]
        · simpa [read, h] using same c
      rw [ih hm'.2.2.2 hn'.2.2.2 tails]

/-! ### Reads and writes through the state (R50, R51) -/

theorem memRead_memWrite_same {s : State} {a b : Nat} (v : Byte) (wf : Memory.wf s.MEM = true)
    (same : b % 4096 = a % 4096) : (s.memWrite a v).memRead b = v := by
  simp only [State.memRead, State.memWrite, same]
  exact Memory.read_write_same _ _ wf

theorem memRead_memWrite_other {s : State} {a b : Nat} (v : Byte) (ne : b % 4096 ≠ a % 4096) :
    (s.memWrite a v).memRead b = s.memRead b :=
  Memory.read_write_other v ne

theorem memWrite_wf {s : State} (a : Nat) (v : Byte) (h : Memory.wf s.MEM = true) :
    Memory.wf (s.memWrite a v).MEM = true :=
  Memory.wf_write v h (Nat.mod_lt _ (by decide))

end Sys2Proof.Machine
end

