-- ==== Sys2Proof/Laws/State.lean ====
section
/-! SUPPORT. One lemma per field per update: what each named operation does to each field of the
state, true by `rfl`, so that no later proof unfolds a record update. -/

namespace Sys2Proof.Machine

variable (s : State)

/-! ### `setReg` -/

@[simp] theorem setReg_V (r : Reg) (v : Byte) : (s.setReg r v).V = s.V.set r v := rfl
@[simp] theorem setReg_pc (r : Reg) (v : Byte) : (s.setReg r v).pc = s.pc := rfl
@[simp] theorem setReg_I (r : Reg) (v : Byte) : (s.setReg r v).I = s.I := rfl
@[simp] theorem setReg_sp (r : Reg) (v : Byte) : (s.setReg r v).sp = s.sp := rfl
@[simp] theorem setReg_STK (r : Reg) (v : Byte) : (s.setReg r v).STK = s.STK := rfl
@[simp] theorem setReg_dt (r : Reg) (v : Byte) : (s.setReg r v).dt = s.dt := rfl
@[simp] theorem setReg_st (r : Reg) (v : Byte) : (s.setReg r v).st = s.st := rfl
@[simp] theorem setReg_ir (r : Reg) (v : Byte) : (s.setReg r v).ir = s.ir := rfl
@[simp] theorem setReg_fault (r : Reg) (v : Byte) : (s.setReg r v).fault = s.fault := rfl
@[simp] theorem setReg_MEM (r : Reg) (v : Byte) : (s.setReg r v).MEM = s.MEM := rfl
@[simp] theorem setReg_FB (r : Reg) (v : Byte) : (s.setReg r v).FB = s.FB := rfl
@[simp] theorem setReg_inputs (r : Reg) (v : Byte) : (s.setReg r v).inputs = s.inputs := rfl
@[simp] theorem setReg_cycles (r : Reg) (v : Byte) : (s.setReg r v).cycles = s.cycles := rfl
@[simp] theorem setReg_memRead (r : Reg) (v : Byte) (i : Nat) :
    (s.setReg r v).memRead i = s.memRead i := rfl
@[simp] theorem setReg_keys (r : Reg) (v : Byte) : (s.setReg r v).keys = s.keys := rfl
@[simp] theorem setReg_rnd (r : Reg) (v : Byte) : (s.setReg r v).rnd = s.rnd := rfl

/-! ### `setFlag` -/

@[simp] theorem setFlag_V (f : Bool) : (s.setFlag f).V = s.V.set flagReg (flagByte f) := rfl
@[simp] theorem setFlag_pc (f : Bool) : (s.setFlag f).pc = s.pc := rfl
@[simp] theorem setFlag_I (f : Bool) : (s.setFlag f).I = s.I := rfl
@[simp] theorem setFlag_sp (f : Bool) : (s.setFlag f).sp = s.sp := rfl
@[simp] theorem setFlag_STK (f : Bool) : (s.setFlag f).STK = s.STK := rfl
@[simp] theorem setFlag_dt (f : Bool) : (s.setFlag f).dt = s.dt := rfl
@[simp] theorem setFlag_st (f : Bool) : (s.setFlag f).st = s.st := rfl
@[simp] theorem setFlag_ir (f : Bool) : (s.setFlag f).ir = s.ir := rfl
@[simp] theorem setFlag_fault (f : Bool) : (s.setFlag f).fault = s.fault := rfl
@[simp] theorem setFlag_MEM (f : Bool) : (s.setFlag f).MEM = s.MEM := rfl
@[simp] theorem setFlag_FB (f : Bool) : (s.setFlag f).FB = s.FB := rfl
@[simp] theorem setFlag_inputs (f : Bool) : (s.setFlag f).inputs = s.inputs := rfl
@[simp] theorem setFlag_cycles (f : Bool) : (s.setFlag f).cycles = s.cycles := rfl
@[simp] theorem setFlag_memRead (f : Bool) (i : Nat) :
    (s.setFlag f).memRead i = s.memRead i := rfl
@[simp] theorem setFlag_keys (f : Bool) : (s.setFlag f).keys = s.keys := rfl
@[simp] theorem setFlag_rnd (f : Bool) : (s.setFlag f).rnd = s.rnd := rfl

/-! ### `setFlagThenReg` -/

@[simp] theorem setFlagThenReg_V (f : Bool) (x : Reg) (v : Byte) : (s.setFlagThenReg f x v).V =
    (s.V.set flagReg (flagByte f)).set x v := rfl
@[simp] theorem setFlagThenReg_pc (f : Bool) (x : Reg) (v : Byte) : (s.setFlagThenReg f x v).pc =
    s.pc := rfl
@[simp] theorem setFlagThenReg_I (f : Bool) (x : Reg) (v : Byte) : (s.setFlagThenReg f x v).I =
    s.I := rfl
@[simp] theorem setFlagThenReg_sp (f : Bool) (x : Reg) (v : Byte) : (s.setFlagThenReg f x v).sp =
    s.sp := rfl
@[simp] theorem setFlagThenReg_STK (f : Bool) (x : Reg) (v : Byte) : (s.setFlagThenReg f x v).STK =
    s.STK := rfl
@[simp] theorem setFlagThenReg_dt (f : Bool) (x : Reg) (v : Byte) : (s.setFlagThenReg f x v).dt =
    s.dt := rfl
@[simp] theorem setFlagThenReg_st (f : Bool) (x : Reg) (v : Byte) : (s.setFlagThenReg f x v).st =
    s.st := rfl
@[simp] theorem setFlagThenReg_ir (f : Bool) (x : Reg) (v : Byte) : (s.setFlagThenReg f x v).ir =
    s.ir := rfl
@[simp] theorem setFlagThenReg_fault (f : Bool) (x : Reg) (v : Byte) : (s.setFlagThenReg f x v).fault =
    s.fault := rfl
@[simp] theorem setFlagThenReg_MEM (f : Bool) (x : Reg) (v : Byte) : (s.setFlagThenReg f x v).MEM =
    s.MEM := rfl
@[simp] theorem setFlagThenReg_FB (f : Bool) (x : Reg) (v : Byte) : (s.setFlagThenReg f x v).FB =
    s.FB := rfl
@[simp] theorem setFlagThenReg_inputs (f : Bool) (x : Reg) (v : Byte) : (s.setFlagThenReg f x v).inputs =
    s.inputs := rfl
@[simp] theorem setFlagThenReg_cycles (f : Bool) (x : Reg) (v : Byte) : (s.setFlagThenReg f x v).cycles =
    s.cycles := rfl
@[simp] theorem setFlagThenReg_memRead (f : Bool) (x : Reg) (v : Byte) (i : Nat) :
    (s.setFlagThenReg f x v).memRead i = s.memRead i := rfl
@[simp] theorem setFlagThenReg_keys (f : Bool) (x : Reg) (v : Byte) : (s.setFlagThenReg f x v).keys = s.keys := rfl
@[simp] theorem setFlagThenReg_rnd (f : Bool) (x : Reg) (v : Byte) : (s.setFlagThenReg f x v).rnd = s.rnd := rfl

/-! ### `setPc` -/

@[simp] theorem setPc_V (t : Nat) : (s.setPc t).V = s.V := rfl
@[simp] theorem setPc_pc (t : Nat) : (s.setPc t).pc = toPc t := rfl
@[simp] theorem setPc_I (t : Nat) : (s.setPc t).I = s.I := rfl
@[simp] theorem setPc_sp (t : Nat) : (s.setPc t).sp = s.sp := rfl
@[simp] theorem setPc_STK (t : Nat) : (s.setPc t).STK = s.STK := rfl
@[simp] theorem setPc_dt (t : Nat) : (s.setPc t).dt = s.dt := rfl
@[simp] theorem setPc_st (t : Nat) : (s.setPc t).st = s.st := rfl
@[simp] theorem setPc_ir (t : Nat) : (s.setPc t).ir = s.ir := rfl
@[simp] theorem setPc_fault (t : Nat) : (s.setPc t).fault = s.fault := rfl
@[simp] theorem setPc_MEM (t : Nat) : (s.setPc t).MEM = s.MEM := rfl
@[simp] theorem setPc_FB (t : Nat) : (s.setPc t).FB = s.FB := rfl
@[simp] theorem setPc_inputs (t : Nat) : (s.setPc t).inputs = s.inputs := rfl
@[simp] theorem setPc_cycles (t : Nat) : (s.setPc t).cycles = s.cycles := rfl
@[simp] theorem setPc_reg (t : Nat) (q : Reg) : (s.setPc t).reg q = s.reg q := rfl
@[simp] theorem setPc_memRead (t : Nat) (i : Nat) :
    (s.setPc t).memRead i = s.memRead i := rfl
@[simp] theorem setPc_keys (t : Nat) : (s.setPc t).keys = s.keys := rfl
@[simp] theorem setPc_rnd (t : Nat) : (s.setPc t).rnd = s.rnd := rfl

/-! ### `skipIf` -/

@[simp] theorem skipIf_V (c : Bool) : (s.skipIf c).V = s.V := rfl
@[simp] theorem skipIf_pc (c : Bool) : (s.skipIf c).pc =
    if c then toPc (s.pc.toNat + 2) else s.pc := rfl
@[simp] theorem skipIf_I (c : Bool) : (s.skipIf c).I = s.I := rfl
@[simp] theorem skipIf_sp (c : Bool) : (s.skipIf c).sp = s.sp := rfl
@[simp] theorem skipIf_STK (c : Bool) : (s.skipIf c).STK = s.STK := rfl
@[simp] theorem skipIf_dt (c : Bool) : (s.skipIf c).dt = s.dt := rfl
@[simp] theorem skipIf_st (c : Bool) : (s.skipIf c).st = s.st := rfl
@[simp] theorem skipIf_ir (c : Bool) : (s.skipIf c).ir = s.ir := rfl
@[simp] theorem skipIf_fault (c : Bool) : (s.skipIf c).fault = s.fault := rfl
@[simp] theorem skipIf_MEM (c : Bool) : (s.skipIf c).MEM = s.MEM := rfl
@[simp] theorem skipIf_FB (c : Bool) : (s.skipIf c).FB = s.FB := rfl
@[simp] theorem skipIf_inputs (c : Bool) : (s.skipIf c).inputs = s.inputs := rfl
@[simp] theorem skipIf_cycles (c : Bool) : (s.skipIf c).cycles = s.cycles := rfl
@[simp] theorem skipIf_reg (c : Bool) (q : Reg) : (s.skipIf c).reg q = s.reg q := rfl
@[simp] theorem skipIf_memRead (c : Bool) (i : Nat) :
    (s.skipIf c).memRead i = s.memRead i := rfl
@[simp] theorem skipIf_keys (c : Bool) : (s.skipIf c).keys = s.keys := rfl
@[simp] theorem skipIf_rnd (c : Bool) : (s.skipIf c).rnd = s.rnd := rfl

/-! ### `stall` -/

@[simp] theorem stall_V : s.stall.V = s.V := rfl
@[simp] theorem stall_pc : s.stall.pc = toPc (s.pc - 2).toNat := rfl
@[simp] theorem stall_I : s.stall.I = s.I := rfl
@[simp] theorem stall_sp : s.stall.sp = s.sp := rfl
@[simp] theorem stall_STK : s.stall.STK = s.STK := rfl
@[simp] theorem stall_dt : s.stall.dt = s.dt := rfl
@[simp] theorem stall_st : s.stall.st = s.st := rfl
@[simp] theorem stall_ir : s.stall.ir = s.ir := rfl
@[simp] theorem stall_fault : s.stall.fault = s.fault := rfl
@[simp] theorem stall_MEM : s.stall.MEM = s.MEM := rfl
@[simp] theorem stall_FB : s.stall.FB = s.FB := rfl
@[simp] theorem stall_inputs : s.stall.inputs = s.inputs := rfl
@[simp] theorem stall_cycles : s.stall.cycles = s.cycles := rfl
@[simp] theorem stall_reg (q : Reg) : s.stall.reg q = s.reg q := rfl
@[simp] theorem stall_memRead (i : Nat) :
    s.stall.memRead i = s.memRead i := rfl
@[simp] theorem stall_keys : s.stall.keys = s.keys := rfl
@[simp] theorem stall_rnd : s.stall.rnd = s.rnd := rfl

/-! ### `setIndex` -/

@[simp] theorem setIndex_V (n : Nat) : (s.setIndex n).V = s.V := rfl
@[simp] theorem setIndex_pc (n : Nat) : (s.setIndex n).pc = s.pc := rfl
@[simp] theorem setIndex_I (n : Nat) : (s.setIndex n).I = BitVec.ofNat 16 n := rfl
@[simp] theorem setIndex_sp (n : Nat) : (s.setIndex n).sp = s.sp := rfl
@[simp] theorem setIndex_STK (n : Nat) : (s.setIndex n).STK = s.STK := rfl
@[simp] theorem setIndex_dt (n : Nat) : (s.setIndex n).dt = s.dt := rfl
@[simp] theorem setIndex_st (n : Nat) : (s.setIndex n).st = s.st := rfl
@[simp] theorem setIndex_ir (n : Nat) : (s.setIndex n).ir = s.ir := rfl
@[simp] theorem setIndex_fault (n : Nat) : (s.setIndex n).fault = s.fault := rfl
@[simp] theorem setIndex_MEM (n : Nat) : (s.setIndex n).MEM = s.MEM := rfl
@[simp] theorem setIndex_FB (n : Nat) : (s.setIndex n).FB = s.FB := rfl
@[simp] theorem setIndex_inputs (n : Nat) : (s.setIndex n).inputs = s.inputs := rfl
@[simp] theorem setIndex_cycles (n : Nat) : (s.setIndex n).cycles = s.cycles := rfl
@[simp] theorem setIndex_reg (n : Nat) (q : Reg) : (s.setIndex n).reg q = s.reg q := rfl
@[simp] theorem setIndex_memRead (n : Nat) (i : Nat) :
    (s.setIndex n).memRead i = s.memRead i := rfl
@[simp] theorem setIndex_keys (n : Nat) : (s.setIndex n).keys = s.keys := rfl
@[simp] theorem setIndex_rnd (n : Nat) : (s.setIndex n).rnd = s.rnd := rfl

/-! ### `memWrite` -/

@[simp] theorem memWrite_V (a : Nat) (v : Byte) : (s.memWrite a v).V = s.V := rfl
@[simp] theorem memWrite_pc (a : Nat) (v : Byte) : (s.memWrite a v).pc = s.pc := rfl
@[simp] theorem memWrite_I (a : Nat) (v : Byte) : (s.memWrite a v).I = s.I := rfl
@[simp] theorem memWrite_sp (a : Nat) (v : Byte) : (s.memWrite a v).sp = s.sp := rfl
@[simp] theorem memWrite_STK (a : Nat) (v : Byte) : (s.memWrite a v).STK = s.STK := rfl
@[simp] theorem memWrite_dt (a : Nat) (v : Byte) : (s.memWrite a v).dt = s.dt := rfl
@[simp] theorem memWrite_st (a : Nat) (v : Byte) : (s.memWrite a v).st = s.st := rfl
@[simp] theorem memWrite_ir (a : Nat) (v : Byte) : (s.memWrite a v).ir = s.ir := rfl
@[simp] theorem memWrite_fault (a : Nat) (v : Byte) : (s.memWrite a v).fault = s.fault := rfl
@[simp] theorem memWrite_MEM (a : Nat) (v : Byte) : (s.memWrite a v).MEM =
    Memory.write s.MEM (a % 4096) v := rfl
@[simp] theorem memWrite_FB (a : Nat) (v : Byte) : (s.memWrite a v).FB = s.FB := rfl
@[simp] theorem memWrite_inputs (a : Nat) (v : Byte) : (s.memWrite a v).inputs = s.inputs := rfl
@[simp] theorem memWrite_cycles (a : Nat) (v : Byte) : (s.memWrite a v).cycles = s.cycles := rfl
@[simp] theorem memWrite_reg (a : Nat) (v : Byte) (q : Reg) : (s.memWrite a v).reg q = s.reg q := rfl
@[simp] theorem memWrite_keys (a : Nat) (v : Byte) : (s.memWrite a v).keys = s.keys := rfl
@[simp] theorem memWrite_rnd (a : Nat) (v : Byte) : (s.memWrite a v).rnd = s.rnd := rfl

/-! ### `pushPc` -/

@[simp] theorem pushPc_V (h : s.sp.val < 16) : (s.pushPc h).V = s.V := rfl
@[simp] theorem pushPc_pc (h : s.sp.val < 16) : (s.pushPc h).pc = s.pc := rfl
@[simp] theorem pushPc_I (h : s.sp.val < 16) : (s.pushPc h).I = s.I := rfl
@[simp] theorem pushPc_sp (h : s.sp.val < 16) : (s.pushPc h).sp = ⟨s.sp.val + 1, by omega⟩ := rfl
@[simp] theorem pushPc_STK (h : s.sp.val < 16) : (s.pushPc h).STK =
    s.STK.set s.sp.val s.pc h := rfl
@[simp] theorem pushPc_dt (h : s.sp.val < 16) : (s.pushPc h).dt = s.dt := rfl
@[simp] theorem pushPc_st (h : s.sp.val < 16) : (s.pushPc h).st = s.st := rfl
@[simp] theorem pushPc_ir (h : s.sp.val < 16) : (s.pushPc h).ir = s.ir := rfl
@[simp] theorem pushPc_fault (h : s.sp.val < 16) : (s.pushPc h).fault = s.fault := rfl
@[simp] theorem pushPc_MEM (h : s.sp.val < 16) : (s.pushPc h).MEM = s.MEM := rfl
@[simp] theorem pushPc_FB (h : s.sp.val < 16) : (s.pushPc h).FB = s.FB := rfl
@[simp] theorem pushPc_inputs (h : s.sp.val < 16) : (s.pushPc h).inputs = s.inputs := rfl
@[simp] theorem pushPc_cycles (h : s.sp.val < 16) : (s.pushPc h).cycles = s.cycles := rfl
@[simp] theorem pushPc_reg (h : s.sp.val < 16) (q : Reg) : (s.pushPc h).reg q = s.reg q := rfl
@[simp] theorem pushPc_memRead (h : s.sp.val < 16) (i : Nat) :
    (s.pushPc h).memRead i = s.memRead i := rfl
@[simp] theorem pushPc_keys (h : s.sp.val < 16) : (s.pushPc h).keys = s.keys := rfl
@[simp] theorem pushPc_rnd (h : s.sp.val < 16) : (s.pushPc h).rnd = s.rnd := rfl

/-! ### `popPc` -/

@[simp] theorem popPc_V (h : 0 < s.sp.val) : (s.popPc h).V = s.V := rfl
@[simp] theorem popPc_pc (h : 0 < s.sp.val) : (s.popPc h).pc =
    toPc (s.STK[s.sp.val - 1]'(by omega)).toNat := rfl
@[simp] theorem popPc_I (h : 0 < s.sp.val) : (s.popPc h).I = s.I := rfl
@[simp] theorem popPc_sp (h : 0 < s.sp.val) : (s.popPc h).sp = ⟨s.sp.val - 1, by omega⟩ := rfl
@[simp] theorem popPc_STK (h : 0 < s.sp.val) : (s.popPc h).STK = s.STK := rfl
@[simp] theorem popPc_dt (h : 0 < s.sp.val) : (s.popPc h).dt = s.dt := rfl
@[simp] theorem popPc_st (h : 0 < s.sp.val) : (s.popPc h).st = s.st := rfl
@[simp] theorem popPc_ir (h : 0 < s.sp.val) : (s.popPc h).ir = s.ir := rfl
@[simp] theorem popPc_fault (h : 0 < s.sp.val) : (s.popPc h).fault = s.fault := rfl
@[simp] theorem popPc_MEM (h : 0 < s.sp.val) : (s.popPc h).MEM = s.MEM := rfl
@[simp] theorem popPc_FB (h : 0 < s.sp.val) : (s.popPc h).FB = s.FB := rfl
@[simp] theorem popPc_inputs (h : 0 < s.sp.val) : (s.popPc h).inputs = s.inputs := rfl
@[simp] theorem popPc_cycles (h : 0 < s.sp.val) : (s.popPc h).cycles = s.cycles := rfl
@[simp] theorem popPc_reg (h : 0 < s.sp.val) (q : Reg) : (s.popPc h).reg q = s.reg q := rfl
@[simp] theorem popPc_memRead (h : 0 < s.sp.val) (i : Nat) :
    (s.popPc h).memRead i = s.memRead i := rfl
@[simp] theorem popPc_keys (h : 0 < s.sp.val) : (s.popPc h).keys = s.keys := rfl
@[simp] theorem popPc_rnd (h : 0 < s.sp.val) : (s.popPc h).rnd = s.rnd := rfl

/-! ### `beginCycle` -/

@[simp] theorem beginCycle_V : s.beginCycle.V = s.V := rfl
@[simp] theorem beginCycle_pc : s.beginCycle.pc = toPc (s.pc.toNat + 2) := rfl
@[simp] theorem beginCycle_I : s.beginCycle.I = s.I := rfl
@[simp] theorem beginCycle_sp : s.beginCycle.sp = s.sp := rfl
@[simp] theorem beginCycle_STK : s.beginCycle.STK = s.STK := rfl
@[simp] theorem beginCycle_dt : s.beginCycle.dt = s.dt := rfl
@[simp] theorem beginCycle_st : s.beginCycle.st = s.st := rfl
@[simp] theorem beginCycle_ir : s.beginCycle.ir = s.fetchWord := rfl
@[simp] theorem beginCycle_fault : s.beginCycle.fault = s.fault := rfl
@[simp] theorem beginCycle_MEM : s.beginCycle.MEM = s.MEM := rfl
@[simp] theorem beginCycle_FB : s.beginCycle.FB = s.FB := rfl
@[simp] theorem beginCycle_inputs : s.beginCycle.inputs = s.inputs := rfl
@[simp] theorem beginCycle_cycles : s.beginCycle.cycles = s.cycles := rfl
@[simp] theorem beginCycle_reg (q : Reg) : s.beginCycle.reg q = s.reg q := rfl
@[simp] theorem beginCycle_memRead (i : Nat) :
    s.beginCycle.memRead i = s.memRead i := rfl
@[simp] theorem beginCycle_keys : s.beginCycle.keys = s.keys := rfl
@[simp] theorem beginCycle_rnd : s.beginCycle.rnd = s.rnd := rfl

/-! ### `completeCycle` -/

@[simp] theorem completeCycle_V : s.completeCycle.V = s.V := rfl
@[simp] theorem completeCycle_pc : s.completeCycle.pc = s.pc := rfl
@[simp] theorem completeCycle_I : s.completeCycle.I = s.I := rfl
@[simp] theorem completeCycle_sp : s.completeCycle.sp = s.sp := rfl
@[simp] theorem completeCycle_STK : s.completeCycle.STK = s.STK := rfl
@[simp] theorem completeCycle_dt : s.completeCycle.dt = tick s.dt := rfl
@[simp] theorem completeCycle_st : s.completeCycle.st = tick s.st := rfl
@[simp] theorem completeCycle_ir : s.completeCycle.ir = s.ir := rfl
@[simp] theorem completeCycle_fault : s.completeCycle.fault = s.fault := rfl
@[simp] theorem completeCycle_MEM : s.completeCycle.MEM = s.MEM := rfl
@[simp] theorem completeCycle_FB : s.completeCycle.FB = s.FB := rfl
@[simp] theorem completeCycle_inputs : s.completeCycle.inputs = s.inputs.tail := rfl
@[simp] theorem completeCycle_cycles : s.completeCycle.cycles = s.cycles + 1 := rfl
@[simp] theorem completeCycle_reg (q : Reg) : s.completeCycle.reg q = s.reg q := rfl
@[simp] theorem completeCycle_memRead (i : Nat) :
    s.completeCycle.memRead i = s.memRead i := rfl

/-! ### `dumpRegs` and `loadRegs`: only memory, only the registers -/

theorem dumpRegs_V (rs : List Reg) : (s.dumpRegs rs).V = s.V := by
  suffices h : ∀ t : State, t.V = s.V → (rs.foldl (fun t i => t.memWrite (s.dataAddr i.val) (s.reg i)) t).V = s.V from h s rfl
  induction rs with
  | nil => exact fun t h => h
  | cons r rs ih => exact fun t h => ih _ h

theorem dumpRegs_pc (rs : List Reg) : (s.dumpRegs rs).pc = s.pc := by
  suffices h : ∀ t : State, t.pc = s.pc → (rs.foldl (fun t i => t.memWrite (s.dataAddr i.val) (s.reg i)) t).pc = s.pc from h s rfl
  induction rs with
  | nil => exact fun t h => h
  | cons r rs ih => exact fun t h => ih _ h

theorem dumpRegs_I (rs : List Reg) : (s.dumpRegs rs).I = s.I := by
  suffices h : ∀ t : State, t.I = s.I → (rs.foldl (fun t i => t.memWrite (s.dataAddr i.val) (s.reg i)) t).I = s.I from h s rfl
  induction rs with
  | nil => exact fun t h => h
  | cons r rs ih => exact fun t h => ih _ h

theorem dumpRegs_sp (rs : List Reg) : (s.dumpRegs rs).sp = s.sp := by
  suffices h : ∀ t : State, t.sp = s.sp → (rs.foldl (fun t i => t.memWrite (s.dataAddr i.val) (s.reg i)) t).sp = s.sp from h s rfl
  induction rs with
  | nil => exact fun t h => h
  | cons r rs ih => exact fun t h => ih _ h

theorem dumpRegs_STK (rs : List Reg) : (s.dumpRegs rs).STK = s.STK := by
  suffices h : ∀ t : State, t.STK = s.STK → (rs.foldl (fun t i => t.memWrite (s.dataAddr i.val) (s.reg i)) t).STK = s.STK from h s rfl
  induction rs with
  | nil => exact fun t h => h
  | cons r rs ih => exact fun t h => ih _ h

theorem dumpRegs_dt (rs : List Reg) : (s.dumpRegs rs).dt = s.dt := by
  suffices h : ∀ t : State, t.dt = s.dt → (rs.foldl (fun t i => t.memWrite (s.dataAddr i.val) (s.reg i)) t).dt = s.dt from h s rfl
  induction rs with
  | nil => exact fun t h => h
  | cons r rs ih => exact fun t h => ih _ h

theorem dumpRegs_st (rs : List Reg) : (s.dumpRegs rs).st = s.st := by
  suffices h : ∀ t : State, t.st = s.st → (rs.foldl (fun t i => t.memWrite (s.dataAddr i.val) (s.reg i)) t).st = s.st from h s rfl
  induction rs with
  | nil => exact fun t h => h
  | cons r rs ih => exact fun t h => ih _ h

theorem dumpRegs_ir (rs : List Reg) : (s.dumpRegs rs).ir = s.ir := by
  suffices h : ∀ t : State, t.ir = s.ir → (rs.foldl (fun t i => t.memWrite (s.dataAddr i.val) (s.reg i)) t).ir = s.ir from h s rfl
  induction rs with
  | nil => exact fun t h => h
  | cons r rs ih => exact fun t h => ih _ h

theorem dumpRegs_fault (rs : List Reg) : (s.dumpRegs rs).fault = s.fault := by
  suffices h : ∀ t : State, t.fault = s.fault → (rs.foldl (fun t i => t.memWrite (s.dataAddr i.val) (s.reg i)) t).fault = s.fault from h s rfl
  induction rs with
  | nil => exact fun t h => h
  | cons r rs ih => exact fun t h => ih _ h

theorem dumpRegs_FB (rs : List Reg) : (s.dumpRegs rs).FB = s.FB := by
  suffices h : ∀ t : State, t.FB = s.FB → (rs.foldl (fun t i => t.memWrite (s.dataAddr i.val) (s.reg i)) t).FB = s.FB from h s rfl
  induction rs with
  | nil => exact fun t h => h
  | cons r rs ih => exact fun t h => ih _ h

theorem dumpRegs_inputs (rs : List Reg) : (s.dumpRegs rs).inputs = s.inputs := by
  suffices h : ∀ t : State, t.inputs = s.inputs → (rs.foldl (fun t i => t.memWrite (s.dataAddr i.val) (s.reg i)) t).inputs = s.inputs from h s rfl
  induction rs with
  | nil => exact fun t h => h
  | cons r rs ih => exact fun t h => ih _ h

theorem dumpRegs_cycles (rs : List Reg) : (s.dumpRegs rs).cycles = s.cycles := by
  suffices h : ∀ t : State, t.cycles = s.cycles → (rs.foldl (fun t i => t.memWrite (s.dataAddr i.val) (s.reg i)) t).cycles = s.cycles from h s rfl
  induction rs with
  | nil => exact fun t h => h
  | cons r rs ih => exact fun t h => ih _ h

theorem loadRegs_pc (rs : List Reg) : (s.loadRegs rs).pc = s.pc := by
  suffices h : ∀ t : State, t.pc = s.pc → (rs.foldl (fun t i => t.setReg i (s.memRead (s.dataAddr i.val))) t).pc = s.pc from h s rfl
  induction rs with
  | nil => exact fun t h => h
  | cons r rs ih => exact fun t h => ih _ h

theorem loadRegs_I (rs : List Reg) : (s.loadRegs rs).I = s.I := by
  suffices h : ∀ t : State, t.I = s.I → (rs.foldl (fun t i => t.setReg i (s.memRead (s.dataAddr i.val))) t).I = s.I from h s rfl
  induction rs with
  | nil => exact fun t h => h
  | cons r rs ih => exact fun t h => ih _ h

theorem loadRegs_sp (rs : List Reg) : (s.loadRegs rs).sp = s.sp := by
  suffices h : ∀ t : State, t.sp = s.sp → (rs.foldl (fun t i => t.setReg i (s.memRead (s.dataAddr i.val))) t).sp = s.sp from h s rfl
  induction rs with
  | nil => exact fun t h => h
  | cons r rs ih => exact fun t h => ih _ h

theorem loadRegs_STK (rs : List Reg) : (s.loadRegs rs).STK = s.STK := by
  suffices h : ∀ t : State, t.STK = s.STK → (rs.foldl (fun t i => t.setReg i (s.memRead (s.dataAddr i.val))) t).STK = s.STK from h s rfl
  induction rs with
  | nil => exact fun t h => h
  | cons r rs ih => exact fun t h => ih _ h

theorem loadRegs_dt (rs : List Reg) : (s.loadRegs rs).dt = s.dt := by
  suffices h : ∀ t : State, t.dt = s.dt → (rs.foldl (fun t i => t.setReg i (s.memRead (s.dataAddr i.val))) t).dt = s.dt from h s rfl
  induction rs with
  | nil => exact fun t h => h
  | cons r rs ih => exact fun t h => ih _ h

theorem loadRegs_st (rs : List Reg) : (s.loadRegs rs).st = s.st := by
  suffices h : ∀ t : State, t.st = s.st → (rs.foldl (fun t i => t.setReg i (s.memRead (s.dataAddr i.val))) t).st = s.st from h s rfl
  induction rs with
  | nil => exact fun t h => h
  | cons r rs ih => exact fun t h => ih _ h

theorem loadRegs_ir (rs : List Reg) : (s.loadRegs rs).ir = s.ir := by
  suffices h : ∀ t : State, t.ir = s.ir → (rs.foldl (fun t i => t.setReg i (s.memRead (s.dataAddr i.val))) t).ir = s.ir from h s rfl
  induction rs with
  | nil => exact fun t h => h
  | cons r rs ih => exact fun t h => ih _ h

theorem loadRegs_fault (rs : List Reg) : (s.loadRegs rs).fault = s.fault := by
  suffices h : ∀ t : State, t.fault = s.fault → (rs.foldl (fun t i => t.setReg i (s.memRead (s.dataAddr i.val))) t).fault = s.fault from h s rfl
  induction rs with
  | nil => exact fun t h => h
  | cons r rs ih => exact fun t h => ih _ h

theorem loadRegs_MEM (rs : List Reg) : (s.loadRegs rs).MEM = s.MEM := by
  suffices h : ∀ t : State, t.MEM = s.MEM → (rs.foldl (fun t i => t.setReg i (s.memRead (s.dataAddr i.val))) t).MEM = s.MEM from h s rfl
  induction rs with
  | nil => exact fun t h => h
  | cons r rs ih => exact fun t h => ih _ h

theorem loadRegs_FB (rs : List Reg) : (s.loadRegs rs).FB = s.FB := by
  suffices h : ∀ t : State, t.FB = s.FB → (rs.foldl (fun t i => t.setReg i (s.memRead (s.dataAddr i.val))) t).FB = s.FB from h s rfl
  induction rs with
  | nil => exact fun t h => h
  | cons r rs ih => exact fun t h => ih _ h

theorem loadRegs_inputs (rs : List Reg) : (s.loadRegs rs).inputs = s.inputs := by
  suffices h : ∀ t : State, t.inputs = s.inputs → (rs.foldl (fun t i => t.setReg i (s.memRead (s.dataAddr i.val))) t).inputs = s.inputs from h s rfl
  induction rs with
  | nil => exact fun t h => h
  | cons r rs ih => exact fun t h => ih _ h

theorem loadRegs_cycles (rs : List Reg) : (s.loadRegs rs).cycles = s.cycles := by
  suffices h : ∀ t : State, t.cycles = s.cycles → (rs.foldl (fun t i => t.setReg i (s.memRead (s.dataAddr i.val))) t).cycles = s.cycles from h s rfl
  induction rs with
  | nil => exact fun t h => h
  | cons r rs ih => exact fun t h => ih _ h

end Sys2Proof.Machine
end

