-- ==== Sys2Proof/Laws/Ops.lean ====
section
/-! SUPPORT. For each shared operation, one lemma that says what it does. -/

namespace Sys2Proof.Machine

/-! ### Program counter -/

@[simp] theorem toPc_toNat (t : Nat) : (toPc t).toNat = t % 4096 := by
  simp only [toPc, BitVec.toNat_ofNat, Config.memSize]; omega

theorem toPc_lt (t : Nat) : (toPc t).toNat < 4096 := by
  rw [toPc_toNat]; exact Nat.mod_lt _ (by decide)

/-- Writing a value that `pc` can hold writes it unchanged. -/
theorem toPc_self {w : Word} (h : w.toNat < 4096) : toPc w.toNat = w := by
  apply BitVec.eq_of_toNat_eq
  rw [toPc_toNat, Nat.mod_eq_of_lt h]

/-- The stall undoes the advance, at the wrap too (R163). -/
theorem stall_undoes_advance (w : Word) : toPc (toPc (w.toNat + 2) - 2).toNat = toPc w.toNat := by
  apply BitVec.eq_of_toNat_eq
  have := toPc_toNat (w.toNat + 2)
  have := toPc_lt (w.toNat + 2)
  rw [toPc_toNat, toPc_toNat, BitVec.toNat_sub, toPc_toNat, show (2 : Word).toNat = 2 from rfl]
  omega

/-! ### Registers and flags -/

theorem reg_setReg (s : State) (x q : Reg) (v : Byte) :
    (s.setReg x v).reg q = if q = x then v else s.reg q := by
  simp [State.reg, State.setReg, Vector.getElem_set, Fin.ext_iff, eq_comm]

@[simp] theorem reg_setReg_same (s : State) (x : Reg) (v : Byte) : (s.setReg x v).reg x = v := by
  rw [reg_setReg, if_pos rfl]

theorem reg_setReg_other (s : State) {x q : Reg} (v : Byte) (ne : q ≠ x) :
    (s.setReg x v).reg q = s.reg q := by
  rw [reg_setReg, if_neg ne]

theorem reg_setFlag (s : State) (f : Bool) (q : Reg) :
    (s.setFlag f).reg q = if q = flagReg then flagByte f else s.reg q := reg_setReg ..

/-- The flag first, the result last (R120): the result register holds the result even when it is
`VF`. -/
theorem reg_setFlagThenReg (s : State) (f : Bool) (x q : Reg) (v : Byte) :
    (s.setFlagThenReg f x v).reg q =
      if q = x then v else if q = flagReg then flagByte f else s.reg q := by
  rw [State.setFlagThenReg, reg_setReg, reg_setFlag]

/-! ### Timers -/

theorem tick_toNat (t : Byte) : (tick t).toNat = t.toNat - 1 := by
  unfold tick
  split
  · subst_vars; rfl
  · have : t.toNat ≠ 0 := fun h => by simp_all [BitVec.toNat_eq]
    rw [BitVec.toNat_sub_of_le (by rw [BitVec.le_def]; exact Nat.pos_of_ne_zero this)]
    rfl

/-! ### The end of a cycle -/

theorem endCycle_running (s : State) {t : State} (h : t.fault = .running) :
    s.endCycle t = t.completeCycle := by
  rw [State.endCycle, h]

theorem endCycle_faulted (s : State) {t : State} (h : t.fault ≠ .running) :
    s.endCycle t = { s with fault := t.fault } := by
  unfold State.endCycle
  split <;> simp_all

@[simp] theorem finishCycle_next (s t : State) : finishCycle s (.next t) = .next (s.endCycle t) := rfl

/-! ### Ranges of registers, and the key scan -/

theorem mem_allRegs (r : Reg) : r ∈ allRegs := by revert r; decide

@[simp] theorem mem_regsUpTo {x r : Reg} : r ∈ regsUpTo x ↔ r ≤ x := by
  simp [regsUpTo, mem_allRegs]

/-- The scan finds a pressed key, and no lower key is pressed (R163). -/
theorem leastKey_spec {keys : Word} (h : keys ≠ 0) :
    keys.getLsbD (leastKey keys).val = true ∧
      ∀ j : Reg, j < leastKey keys → keys.getLsbD j.val = false := by
  cases found : allRegs.find? (fun i => keys.getLsbD i.val) with
  | none =>
    exfalso
    apply h
    apply BitVec.eq_of_getLsbD_eq
    intro i hi
    have := List.find?_eq_none.mp found ⟨i, hi⟩ (mem_allRegs _)
    simpa using this
  | some k =>
    have eq : leastKey keys = k := by rw [leastKey, found]; rfl
    rw [eq]
    refine ⟨by simpa using List.find?_some found, fun j lt => ?_⟩
    obtain ⟨-, as, bs, split, before⟩ := List.find?_eq_some_iff_append.mp found
    have mem : j ∈ as := by
      have sorted : (as ++ k :: bs).Pairwise (· < ·) := by rw [← split]; decide
      have : j ∈ as ++ k :: bs := by rw [← split]; exact mem_allRegs j
      rcases List.mem_append.mp this with m | m
      · exact m
      · rcases List.mem_cons.mp m with rfl | m
        · exact absurd lt (lt_irrefl _)
        · have := List.rel_of_pairwise_cons (List.pairwise_append.mp sorted).2.1 m
          exact absurd (lt_trans lt this) (lt_irrefl _)
    simpa using before j mem

/-! ### Block transfers -/

theorem dumpRegs_reg (s : State) (rs : List Reg) (q : Reg) : (s.dumpRegs rs).reg q = s.reg q := by
  rw [State.reg, dumpRegs_V]; rfl

theorem loadRegs_memRead (s : State) (rs : List Reg) (a : Nat) :
    (s.loadRegs rs).memRead a = s.memRead a := by
  rw [State.memRead, loadRegs_MEM]; rfl

/-- The register dump keeps memory canonical. -/
theorem dumpRegs_wf {s : State} (rs : List Reg) (h : Memory.wf s.MEM = true) :
    Memory.wf (s.dumpRegs rs).MEM = true := by
  suffices k : ∀ t : State, Memory.wf t.MEM = true →
      Memory.wf (rs.foldl (fun t i => t.memWrite (s.dataAddr i.val) (s.reg i)) t).MEM = true from
    k s h
  induction rs with
  | nil => exact fun t h => h
  | cons r rs ih => exact fun t h => ih _ (memWrite_wf _ _ h)

/-- The register load: a register in the list holds its byte, any other is as before. -/
theorem loadRegs_reg (s : State) (rs : List Reg) (q : Reg) :
    (s.loadRegs rs).reg q = if q ∈ rs then s.memRead (s.dataAddr q.val) else s.reg q := by
  suffices k : ∀ t : State,
      (rs.foldl (fun t i => t.setReg i (s.memRead (s.dataAddr i.val))) t).reg q =
        if q ∈ rs then s.memRead (s.dataAddr q.val) else t.reg q from k s
  induction rs with
  | nil => exact fun t => by simp
  | cons r rs ih =>
    intro t
    rw [List.foldl_cons, ih, reg_setReg]
    by_cases h : q = r <;> by_cases m : q ∈ rs <;> simp [h, m]

/-- The addresses of a block transfer are distinct: sixteen offsets, a modulus of 4096 (R55). -/
theorem dataAddr_inj {s : State} {i j : Reg}
    (h : s.dataAddr i.val % 4096 = s.dataAddr j.val % 4096) : i = j := by
  simp only [State.dataAddr] at h
  apply Fin.ext
  omega

/-- The register dump leaves every byte that is none of its own as before. -/
theorem dumpRegs_memRead_other {s : State} {rs : List Reg} {a : Nat}
    (ne : ∀ i ∈ rs, a % 4096 ≠ s.dataAddr i.val % 4096) :
    (s.dumpRegs rs).memRead a = s.memRead a := by
  suffices k : ∀ t : State,
      (rs.foldl (fun t i => t.memWrite (s.dataAddr i.val) (s.reg i)) t).memRead a = t.memRead a from
    k s
  induction rs with
  | nil => exact fun t => rfl
  | cons r rs ih =>
    intro t
    rw [List.foldl_cons, ih fun j mj => ne j (List.mem_cons_of_mem _ mj),
      memRead_memWrite_other _ (ne r List.mem_cons_self)]

/-- The register dump: the byte of a register in the list holds it. -/
theorem dumpRegs_memRead_stored {s : State} {rs : List Reg} {a : Nat}
    (wf : Memory.wf s.MEM = true) {i : Reg} (mem : i ∈ rs)
    (eq : a % 4096 = s.dataAddr i.val % 4096) : (s.dumpRegs rs).memRead a = s.reg i := by
  suffices k : ∀ t : State, Memory.wf t.MEM = true →
      (rs.foldl (fun t i => t.memWrite (s.dataAddr i.val) (s.reg i)) t).memRead a =
        if i ∈ rs then s.reg i else t.memRead a by
    exact (k s wf).trans (if_pos mem)
  clear mem
  induction rs with
  | nil => exact fun t _ => by simp
  | cons r rs ih =>
    intro t wft
    rw [List.foldl_cons, ih _ (memWrite_wf _ _ wft)]
    by_cases later : i ∈ rs
    · simp [later]
    · by_cases here : i = r
      · subst here
        simp [later, memRead_memWrite_same _ wft eq]
      · have ne : a % 4096 ≠ s.dataAddr r.val % 4096 := fun e =>
          here (dataAddr_inj (eq.symm.trans e))
        simp [later, here, memRead_memWrite_other _ ne]

/-! ### Framebuffer -/

/-- A toggle changes its own cell, inside the grid, and no other. -/
theorem cell_toggle (fb : Framebuffer) (yy xx r c : Nat) :
    (fb.toggle yy xx).cell r c =
      if r = yy ∧ c = xx ∧ r < 32 ∧ c < 64 then !fb.cell r c else fb.cell r c := by
  unfold Framebuffer.toggle Framebuffer.cell
  by_cases inside : yy < 32 ∧ xx < 64 <;> by_cases here : r < 32 ∧ c < 64 <;>
    simp only [inside, here, dif_pos, dif_neg, not_false_iff, and_true, and_self]
  · by_cases hr : yy = r
    · subst hr
      by_cases hc : xx = c
      · subst hc; simp
      · simp [hc, Ne.symm hc]
    · simp [hr, Ne.symm hr]
  · simp
  · have : ¬ (r = yy ∧ c = xx) := by rintro ⟨rfl, rfl⟩; exact inside here
    rw [if_neg (by tauto)]
  · simp

/-- Framebuffers with equal cells are equal. -/
theorem Framebuffer.ext_cell {fb gb : Framebuffer}
    (h : ∀ r < 32, ∀ c < 64, Framebuffer.cell fb r c = Framebuffer.cell gb r c) : fb = gb := by
  apply Vector.ext
  intro r hr
  apply Vector.ext
  intro c hc
  simpa [Framebuffer.cell, hr, hc] using h r hr c hc

/-- One pixel (R152): a set pixel inside the columns toggles its cell and reports whether it was on;
any other pixel does nothing. -/
theorem drawPixel_eq (yy xx : Nat) (bit : Bool) (d : Drawing) :
    drawPixel yy xx bit d =
      if bit = true ∧ xx ≤ 63 then (d.1.toggle yy xx, d.2 || d.1.cell yy xx) else d := by
  simp [drawPixel]

end Sys2Proof.Machine
end

