-- ==== Sys2Proof/Laws/PerInstr.lean ====
section
/-! SUPPORT. The per-instruction family `EncodingRow`: the canonical word of every instruction
belongs to a row of the opcode map (R74, R76). -/

namespace Sys2Proof.Laws.EncodingRow

/-- Some row of the opcode map takes the canonical word of the instruction. -/
def Statement (i : Instr) : Prop := ∃ r ∈ opcodeTable, r.hit (encode i) = true

/-- A row named by its place in the table. -/
theorem mem_row {i : Instr} (k : Nat) (h : k < opcodeTable.length)
    (hit : opcodeTable[k].hit (encode i) = true) : Statement i :=
  ⟨opcodeTable[k], List.getElem_mem h, hit⟩

theorem cls : Statement .cls := mem_row 0 (by decide) (by decide)

theorem ret : Statement .ret := mem_row 1 (by decide) (by decide)

theorem jp (nnn : Addr) : Statement (.jp nnn) := mem_row 2 (by decide) (by
  change (formatA 0x1 nnn &&& 0xF000 == 0x1000) = true
  rw [and_F000, selField_formatA]; rfl)

theorem call (nnn : Addr) : Statement (.call nnn) := mem_row 3 (by decide) (by
  change (formatA 0x2 nnn &&& 0xF000 == 0x2000) = true
  rw [and_F000, selField_formatA]; rfl)

theorem seByte (x : Reg) (kk : Byte) : Statement (.seByte x kk) := mem_row 4 (by decide) (by
  change (formatK 0x3 x kk &&& 0xF000 == 0x3000) = true
  rw [and_F000, selField_formatK]; rfl)

theorem sneByte (x : Reg) (kk : Byte) : Statement (.sneByte x kk) := mem_row 5 (by decide) (by
  change (formatK 0x4 x kk &&& 0xF000 == 0x4000) = true
  rw [and_F000, selField_formatK]; rfl)

theorem seReg (x : Reg) (y : Reg) : Statement (.seReg x y) := mem_row 6 (by decide) (by
  change (formatR 0x5 x y 0x0 &&& 0xF000 == 0x5000) = true
  rw [and_F000, selField_formatR]; rfl)

theorem ldByte (x : Reg) (kk : Byte) : Statement (.ldByte x kk) := mem_row 7 (by decide) (by
  change (formatK 0x6 x kk &&& 0xF000 == 0x6000) = true
  rw [and_F000, selField_formatK]; rfl)

theorem addByte (x : Reg) (kk : Byte) : Statement (.addByte x kk) := mem_row 8 (by decide) (by
  change (formatK 0x7 x kk &&& 0xF000 == 0x7000) = true
  rw [and_F000, selField_formatK]; rfl)

theorem ldReg (x : Reg) (y : Reg) : Statement (.ldReg x y) := mem_row 9 (by decide) (by
  change (formatR 0x8 x y 0x0 &&& 0xF00F == 0x8000) = true
  rw [and_F00F, selField_formatR, subField_formatR]; rfl)

theorem orReg (x : Reg) (y : Reg) : Statement (.orReg x y) := mem_row 10 (by decide) (by
  change (formatR 0x8 x y 0x1 &&& 0xF00F == 0x8001) = true
  rw [and_F00F, selField_formatR, subField_formatR]; rfl)

theorem andReg (x : Reg) (y : Reg) : Statement (.andReg x y) := mem_row 11 (by decide) (by
  change (formatR 0x8 x y 0x2 &&& 0xF00F == 0x8002) = true
  rw [and_F00F, selField_formatR, subField_formatR]; rfl)

theorem xorReg (x : Reg) (y : Reg) : Statement (.xorReg x y) := mem_row 12 (by decide) (by
  change (formatR 0x8 x y 0x3 &&& 0xF00F == 0x8003) = true
  rw [and_F00F, selField_formatR, subField_formatR]; rfl)

theorem addReg (x : Reg) (y : Reg) : Statement (.addReg x y) := mem_row 13 (by decide) (by
  change (formatR 0x8 x y 0x4 &&& 0xF00F == 0x8004) = true
  rw [and_F00F, selField_formatR, subField_formatR]; rfl)

theorem subReg (x : Reg) (y : Reg) : Statement (.subReg x y) := mem_row 14 (by decide) (by
  change (formatR 0x8 x y 0x5 &&& 0xF00F == 0x8005) = true
  rw [and_F00F, selField_formatR, subField_formatR]; rfl)

theorem shr (x : Reg) : Statement (.shr x) := mem_row 15 (by decide) (by
  change (formatR 0x8 x 0 0x6 &&& 0xF00F == 0x8006) = true
  rw [and_F00F, selField_formatR, subField_formatR]; rfl)

theorem subnReg (x : Reg) (y : Reg) : Statement (.subnReg x y) := mem_row 16 (by decide) (by
  change (formatR 0x8 x y 0x7 &&& 0xF00F == 0x8007) = true
  rw [and_F00F, selField_formatR, subField_formatR]; rfl)

theorem shl (x : Reg) : Statement (.shl x) := mem_row 17 (by decide) (by
  change (formatR 0x8 x 0 0xE &&& 0xF00F == 0x800E) = true
  rw [and_F00F, selField_formatR, subField_formatR]; rfl)

theorem sneReg (x : Reg) (y : Reg) : Statement (.sneReg x y) := mem_row 18 (by decide) (by
  change (formatR 0x9 x y 0x0 &&& 0xF000 == 0x9000) = true
  rw [and_F000, selField_formatR]; rfl)

theorem ldI (nnn : Addr) : Statement (.ldI nnn) := mem_row 19 (by decide) (by
  change (formatA 0xA nnn &&& 0xF000 == 0xA000) = true
  rw [and_F000, selField_formatA]; rfl)

theorem jpV0 (nnn : Addr) : Statement (.jpV0 nnn) := mem_row 20 (by decide) (by
  change (formatA 0xB nnn &&& 0xF000 == 0xB000) = true
  rw [and_F000, selField_formatA]; rfl)

theorem rnd (x : Reg) (kk : Byte) : Statement (.rnd x kk) := mem_row 21 (by decide) (by
  change (formatK 0xC x kk &&& 0xF000 == 0xC000) = true
  rw [and_F000, selField_formatK]; rfl)

theorem drw (x : Reg) (y : Reg) (n : RowCount) : Statement (.drw x y n) := mem_row 22 (by decide) (by
  change (formatR 0xD x y (BitVec.ofFin (w := 4) n) &&& 0xF000 == 0xD000) = true
  rw [and_F000, selField_formatR]; rfl)

theorem skp (x : Reg) : Statement (.skp x) := mem_row 23 (by decide) (by
  change (formatK 0xE x 0x9E &&& 0xF00F == 0xE00E) = true
  rw [and_F00F, selField_formatK, subField_formatK]; rfl)

theorem sknp (x : Reg) : Statement (.sknp x) := mem_row 24 (by decide) (by
  change (formatK 0xE x 0xA1 &&& 0xF00F == 0xE001) = true
  rw [and_F00F, selField_formatK, subField_formatK]; rfl)

theorem ldVxDt (x : Reg) : Statement (.ldVxDt x) := mem_row 25 (by decide) (by
  change (formatK 0xF x 0x07 &&& 0xF0FF == 0xF007) = true
  rw [and_F0FF, selField_formatK, kkField_formatK]; rfl)

theorem ldVxK (x : Reg) : Statement (.ldVxK x) := mem_row 26 (by decide) (by
  change (formatK 0xF x 0x0A &&& 0xF0FF == 0xF00A) = true
  rw [and_F0FF, selField_formatK, kkField_formatK]; rfl)

theorem ldDtVx (x : Reg) : Statement (.ldDtVx x) := mem_row 27 (by decide) (by
  change (formatK 0xF x 0x15 &&& 0xF0FF == 0xF015) = true
  rw [and_F0FF, selField_formatK, kkField_formatK]; rfl)

theorem ldStVx (x : Reg) : Statement (.ldStVx x) := mem_row 28 (by decide) (by
  change (formatK 0xF x 0x18 &&& 0xF0FF == 0xF018) = true
  rw [and_F0FF, selField_formatK, kkField_formatK]; rfl)

theorem addI (x : Reg) : Statement (.addI x) := mem_row 29 (by decide) (by
  change (formatK 0xF x 0x1E &&& 0xF0FF == 0xF01E) = true
  rw [and_F0FF, selField_formatK, kkField_formatK]; rfl)

theorem ldF (x : Reg) : Statement (.ldF x) := mem_row 30 (by decide) (by
  change (formatK 0xF x 0x29 &&& 0xF0FF == 0xF029) = true
  rw [and_F0FF, selField_formatK, kkField_formatK]; rfl)

theorem ldB (x : Reg) : Statement (.ldB x) := mem_row 31 (by decide) (by
  change (formatK 0xF x 0x33 &&& 0xF0FF == 0xF033) = true
  rw [and_F0FF, selField_formatK, kkField_formatK]; rfl)

theorem ldMemVx (x : Reg) : Statement (.ldMemVx x) := mem_row 32 (by decide) (by
  change (formatK 0xF x 0x55 &&& 0xF0FF == 0xF055) = true
  rw [and_F0FF, selField_formatK, kkField_formatK]; rfl)

theorem ldVxMem (x : Reg) : Statement (.ldVxMem x) := mem_row 33 (by decide) (by
  change (formatK 0xF x 0x65 &&& 0xF0FF == 0xF065) = true
  rw [and_F0FF, selField_formatK, kkField_formatK]; rfl)

end Sys2Proof.Laws.EncodingRow
end

