-- ==== Sys2Proof/Laws/Step.lean ====
section
/-! SUPPORT. Runs of the machine, one step at a time, and what a cycle with given inputs is. -/

namespace Sys2Proof.Machine

@[simp] theorem run_zero (s : State) : core.run 0 s = .next s := rfl

/-- A run of `k + 1` cycles is a step and a run of `k`. -/
theorem run_succ {s t : State} (k : Nat) (h : step s = .next t) :
    core.run (k + 1) s = core.run k t := by
  have h' : core.step s = .next t := h
  simp only [Host.Core.run, h']

/-- `Cycle` from a step with its inputs put in front. -/
theorem cycle_of_step {s t : State} {keys : Word} {rnd : Byte}
    (h : step { s with inputs := ⟨keys, rnd⟩ :: s.inputs } = .next t) :
    cycle keys rnd s = .next { t with inputs := s.inputs } := by
  rw [cycle, h]

/-- Fetch looks at memory and `pc` alone, so it does not depend on the inputs. -/
@[simp] theorem fetchWord_inputs (s : State) (l : List Inputs) :
    State.fetchWord { s with inputs := l } = s.fetchWord := rfl

end Sys2Proof.Machine
end

