-- ==== Sys2Proof/Tests/Slice0.lean ====
section
/-! SUPPORT. The model's own tests.  Expected values come from spec/95_test_vectors.md (the vector's
id `T…`, program `P…` or example `S…` is in the theorem's name or comment) or are written out from the
encodings of 30_encoding.md R74.  The last part holds, for every obligation with hypotheses, a state
that meets them. -/

namespace Sys2Proof.Tests

open Sys2Proof.Machine

-- One theorem at a time: a thread for each would reserve more memory than the check allows.
set_option Elab.async false

/-! ### Well-formedness: ill-formed terms are refused -/

/-- S10. -/
theorem test_wf_image :
    imageWf (List.replicate 3584 0xAA) = true ∧ imageWf (List.replicate 3585 0xAA) = false := by
  decide +kernel

/-- Memory: not rising, beyond the last address, an entry that an unlisted address also reads as. -/
theorem test_wf_memory :
    Memory.wf [(0x200, 0x12), (0xFFF, 0x01)] = true ∧
    Memory.wf [(0x201, 0x12), (0x200, 0x12)] = false ∧
    Memory.wf [(0x200, 0x12), (0x200, 0x13)] = false ∧
    Memory.wf [(0x1000, 0x12)] = false ∧
    Memory.wf [(0x200, 0x00)] = false ∧ Memory.wf [(0x050, 0xF0)] = false ∧
    Memory.wf [(0x050, 0x00)] = true := by decide +kernel

/-- States outside the invariant: `pc`, a stack entry, memory. -/
theorem test_wf_state :
    State.reset.Inv ∧ ¬ State.Inv { State.reset with pc := 0x1000 } ∧
    ¬ State.Inv { State.reset with STK := State.reset.STK.set 15 0x1000 } ∧
    ¬ State.Inv { State.reset with MEM := [(0x300, 0x00)] } := by decide +kernel

/-- R76: canonical words, and aliases and an undefined word that are not. -/
theorem test_wf_canonical :
    isCanonical 0x00E0 = true ∧ isCanonical 0x5120 = true ∧ isCanonical 0x8306 = true ∧
    isCanonical 0x0000 = false ∧ isCanonical 0x512F = false ∧ isCanonical 0x8356 = false ∧
    isCanonical 0xE20E = false ∧ isCanonical 0x8008 = false := by decide +kernel

/-! ### Decoding: a word of every row of R74 -/

theorem test_decode_flow :
    decode 0b0000000011101110 = .instr .ret ∧
    decode 0b0001001000110100 = .instr (.jp 0x234) ∧
    decode 0b0010101010111100 = .instr (.call 0xABC) ∧
    decode 0b0011001100101010 = .instr (.seByte 3 0x2A) ∧
    decode 0b0100001100101010 = .instr (.sneByte 3 0x2A) ∧
    decode 0b0101000100100000 = .instr (.seReg 1 2) ∧
    decode 0b1001000100100000 = .instr (.sneReg 1 2) ∧
    decode 0b1011111100000001 = .instr (.jpV0 0xF01) := by decide +kernel

theorem test_decode_alu :
    decode 0b0110000000000101 = .instr (.ldByte 0 0x05) ∧
    decode 0b0111001011111110 = .instr (.addByte 2 0xFE) ∧
    decode 0b1000101001010000 = .instr (.ldReg 10 5) ∧
    decode 0b1000101001010001 = .instr (.orReg 10 5) ∧
    decode 0b1000101001010010 = .instr (.andReg 10 5) ∧
    decode 0b1000101001010011 = .instr (.xorReg 10 5) ∧
    decode 0b1000000000010100 = .instr (.addReg 0 1) ∧
    decode 0b1000101001010101 = .instr (.subReg 10 5) ∧
    decode 0b1000101000000110 = .instr (.shr 10) ∧
    decode 0b1000101001010111 = .instr (.subnReg 10 5) ∧
    decode 0b1000101000001110 = .instr (.shl 10) ∧
    decode 0b1100001100001111 = .instr (.rnd 3 0x0F) := by decide +kernel

theorem test_decode_index_memory :
    decode 0b1010001011110000 = .instr (.ldI 0x2F0) ∧
    decode 0b1111001000011110 = .instr (.addI 2) ∧
    decode 0b1111010000101001 = .instr (.ldF 4) ∧
    decode 0b1111010000110011 = .instr (.ldB 4) ∧
    decode 0b1111001001010101 = .instr (.ldMemVx 2) ∧
    decode 0b1111001001100101 = .instr (.ldVxMem 2) := by decide +kernel

theorem test_decode_display :
    decode 0b0000000011100000 = .instr .cls ∧
    decode 0b1101000111101111 = .instr (.drw 1 14 15) := by decide +kernel

theorem test_decode_keypad_timers :
    decode 0b1110001010011110 = .instr (.skp 2) ∧
    decode 0b1110001010100001 = .instr (.sknp 2) ∧
    decode 0b1111001100000111 = .instr (.ldVxDt 3) ∧
    decode 0b1111010100001010 = .instr (.ldVxK 5) ∧
    decode 0b1111001100010101 = .instr (.ldDtVx 3) ∧
    decode 0b1111001100011000 = .instr (.ldStVx 3) := by decide +kernel

/-- R76: aliases; R77: undefined words of each selector. -/
theorem test_decode_alias_undefined :
    decode 0x0AB0 = .instr .cls ∧ decode 0x012E = .instr .ret ∧ decode 0x512F = .instr (.seReg 1 2) ∧
    decode 0x8356 = .instr (.shr 3) ∧ decode 0xE20E = .instr (.skp 2) ∧
    decode 0xE2F1 = .instr (.sknp 2) ∧
    decode 0x0123 = .undefinedWord ∧ decode 0x8008 = .undefinedWord ∧
    decode 0xE09F = .undefinedWord ∧ decode 0xF0FF = .undefinedWord := by decide +kernel

/-- R52, R70: bytes, high byte first; one byte is no instruction. -/
theorem test_decode_bytes :
    (decodeBytes [0x80, 0x14, 0x12]).toOption = some (.addReg 0 1, [0x12]) ∧
    decodeTableWord 16 0x8014 = some (.addReg 0 1) ∧ decodeTableWord 16 0x8008 = none ∧
    (decodeBytes [0x80]).toOption = none := by decide +kernel

/-! ### One cycle each (95_test_vectors.md L2) -/

/-- The state before a vector: reset, the differences, `pc`, and the word stored at `pc`. -/
def placed (pc : Word) (w : Word) (diff : State → State) : State :=
  State.withFetchWord { diff State.reset with pc := pc } 16 w.toNat

/-- One cycle of the vector changes `ir` to the word, what `change` says, and nothing else. -/
def vector (pc w : Word) (diff change : State → State) : Bool :=
  let s := placed pc w diff
  match step s with
  | .next t => decide (t = change { s with ir := w, inputs := s.inputs.tail, cycles := 1 })
  | _ => false

/-- Give registers their values. -/
def regs (l : List (Reg × Byte)) (s : State) : State :=
  { s with V := Vector.ofFn fun r => ((l.find? fun p => p.1 == r).map Prod.snd).getD (s.V[r]) }

/-- Give `pc` and registers their values. -/
def goes (pc : Word) (l : List (Reg × Byte)) (s : State) : State := { regs l s with pc := pc }

/-- The picture with the listed rows, column 0 the most significant of 64 bits, and all other rows
off. -/
def rows (l : List (Nat × Nat)) : List Nat :=
  (List.range 32).map fun yy => ((l.find? fun p => p.1 == yy).map Prod.snd).getD 0

/-- The framebuffer that shows a picture. -/
def lit (l : List (Nat × Nat)) : Framebuffer :=
  ⟨((List.range 32).map fun yy =>
    let row := ((l.find? fun p => p.1 == yy).map Prod.snd).getD 0
    (⟨((List.range 64).map fun xx => row.testBit (63 - xx)).toArray, by simp⟩ : Vector Bool 64)).toArray,
    by simp⟩

/-- The picture a framebuffer shows. -/
def picture (fb : Framebuffer) : List Nat :=
  fb.toList.map fun row => row.toList.foldl (fun n b => 2 * n + b.toNat) 0

/-- `vector` for an instruction that writes the framebuffer: `change` says what else changes, `l`
what the picture is after. -/
def drawing (w : Word) (diff change : State → State) (l : List (Nat × Nat)) : Bool :=
  let s := placed 0x200 w diff
  match step s with
  | .next t =>
    decide ({ t with FB := Framebuffer.blank } =
      change { s with ir := w, inputs := s.inputs.tail, cycles := 1, FB := Framebuffer.blank }) &&
      decide (picture t.FB = rows l)
  | _ => false

/-- This cycle's keypad sample. -/
def hold (keys : Word) (s : State) : State := { s with inputs := [⟨keys, 0x00⟩] }

/-- Bytes of memory from an address upward. -/
def bytes (a : Nat) (l : List Byte) (s : State) : State :=
  { s with MEM := Memory.writeBytes s.MEM a l }

theorem test_T1_undefined :
    vector 0x200 0x8008 (fun s => { s with dt := 3 })
      (fun s => { s with pc := 0x202, dt := 2 }) = true := by decide +kernel
theorem test_T8_fetch_wraps :
    vector 0xFFF 0x6A11 id (goes 0x001 [(10, 0x11)]) = true := by decide +kernel
theorem test_T10_timers :
    vector 0x200 0x6A11 (fun s => { s with dt := 1, st := 255 })
      (fun s => { goes 0x202 [(10, 0x11)] s with dt := 0, st := 254 }) = true := by decide +kernel
/-- T11 and T17: the halted core, and an overflow, which changes `fault` alone. -/
theorem test_T11_T17_halt :
    vector 0x200 0x6A11 (fun s => { s with fault := .stackOverflow, dt := 9 })
      (fun s => { s with ir := 0, cycles := 0 }) = true ∧
    vector 0x200 0x2300 (fun s => { s with sp := 16, dt := 5 })
      (fun s => { s with ir := 0, cycles := 0, fault := .stackOverflow }) = true := by
  decide +kernel

theorem test_T12_jp : vector 0x200 0x1234 id (goes 0x234 []) = true := by decide +kernel
theorem test_T16_call :
    vector 0x200 0x2300 (fun s => { s with sp := 15 })
      (fun s => { s with pc := 0x300, sp := 16, STK := s.STK.set 15 0x0202 }) = true := by
  decide +kernel
theorem test_T20_ret :
    vector 0x200 0x00EE (fun s => { s with sp := 16, STK := s.STK.set 15 0x0ABD })
      (fun s => { s with pc := 0xABD, sp := 15 }) = true := by decide +kernel
theorem test_T21_ret_underflow :
    vector 0x200 0x00EE (fun s => { s with dt := 5 })
      (fun s => { s with ir := 0, cycles := 0, fault := .stackUnderflow }) = true := by decide +kernel
theorem test_T23_seByte :
    vector 0x200 0x332A (regs [(3, 0x2A)]) (goes 0x204 []) = true ∧
    vector 0xFFE 0x3000 id (goes 0x002 []) = true := by decide +kernel
theorem test_T25_sneByte :
    vector 0x200 0x432A (regs [(3, 0x2A)]) (goes 0x202 []) = true ∧
    vector 0x200 0x4300 (regs [(3, 0x2A)]) (goes 0x204 []) = true := by decide +kernel
theorem test_T28_seReg :
    vector 0x200 0x5120 (regs [(1, 0x07), (2, 0x08)]) (goes 0x202 []) = true ∧
    vector 0x200 0x512F (regs [(1, 0x07), (2, 0x07)]) (goes 0x204 []) = true := by decide +kernel
theorem test_T31_sneReg :
    vector 0x200 0x9120 (regs [(1, 0x07), (2, 0x08)]) (goes 0x204 []) = true ∧
    vector 0x200 0x9120 (regs [(1, 0x07), (2, 0x07)]) (goes 0x202 []) = true := by decide +kernel
theorem test_T36_jpV0 :
    vector 0x200 0xBFFF (regs [(0, 0xFF)]) (goes 0x0FE []) = true ∧
    vector 0x200 0xB300 (regs [(0, 0x04), (3, 0x50)]) (goes 0x304 []) = true := by decide +kernel

theorem test_T39_ldByte : vector 0x200 0x6FAB id (goes 0x202 [(15, 0xAB)]) = true := by decide +kernel
theorem test_T41_addByte :
    vector 0x200 0x7201 (regs [(2, 0xFF), (15, 0x55)]) (goes 0x202 [(2, 0x00)]) = true := by
  decide +kernel
theorem test_T42_ldReg :
    vector 0x200 0x8010 (regs [(1, 0x7E)]) (goes 0x202 [(0, 0x7E)]) = true := by decide +kernel
theorem test_T47_orReg :
    vector 0x200 0x8011 (regs [(0, 0xF0), (1, 0x0F), (15, 0x01)]) (goes 0x202 [(0, 0xFF)]) = true := by
  decide +kernel
theorem test_T44_andReg :
    vector 0x200 0x8012 (regs [(0, 0xF3), (1, 0x3F)]) (goes 0x202 [(0, 0x33)]) = true := by
  decide +kernel
theorem test_T45_xorReg :
    vector 0x200 0x8013 (regs [(0, 0xFF), (1, 0x0F)]) (goes 0x202 [(0, 0xF0)]) = true := by
  decide +kernel
theorem test_T50_addReg :
    vector 0x200 0x8014 (regs [(0, 0xC8), (1, 0x37)]) (goes 0x202 [(0, 0xFF)]) = true ∧
    vector 0x200 0x8014 (regs [(0, 0xFF), (1, 0x01)]) (goes 0x202 [(0, 0x00), (15, 0x01)]) = true := by
  decide +kernel
theorem test_T54_addReg_flag_register :
    vector 0x200 0x8F14 (regs [(15, 0xF0), (1, 0x20)]) (goes 0x202 [(15, 0x10)]) = true ∧
    vector 0x200 0x80F4 (regs [(0, 0xFF), (15, 0x01)]) (goes 0x202 [(0, 0x00)]) = true := by
  decide +kernel
theorem test_T56_subReg :
    vector 0x200 0x8015 (regs [(0, 0x05), (1, 0x03)]) (goes 0x202 [(0, 0x02), (15, 0x01)]) = true ∧
    vector 0x200 0x8015 (regs [(0, 0x03), (1, 0x05)]) (goes 0x202 [(0, 0xFE)]) = true := by
  decide +kernel
theorem test_T58_subReg_equal :
    vector 0x200 0x8015 (regs [(0, 0x07), (1, 0x07), (15, 0x01)])
      (goes 0x202 [(0, 0x00), (15, 0x00)]) = true := by decide +kernel
theorem test_T64_shr :
    vector 0x200 0x8356 (regs [(3, 0x05), (5, 0xF0)]) (goes 0x202 [(3, 0x02), (15, 0x01)]) = true ∧
    vector 0x200 0x8F06 (regs [(15, 0x05)]) (goes 0x202 [(15, 0x02)]) = true := by decide +kernel
theorem test_T61_subnReg :
    vector 0x200 0x8017 (regs [(0, 0x10), (1, 0x20)]) (goes 0x202 [(15, 0x01)]) = true ∧
    vector 0x200 0x8017 (regs [(0, 0x05), (1, 0x03)]) (goes 0x202 [(0, 0xFE)]) = true := by
  decide +kernel
theorem test_T69_shl :
    vector 0x200 0x830E (regs [(3, 0x81)]) (goes 0x202 [(3, 0x02), (15, 0x01)]) = true ∧
    vector 0x200 0x830E (regs [(3, 0x7F)]) (goes 0x202 [(3, 0xFE)]) = true := by decide +kernel
theorem test_T73_rnd :
    vector 0x200 0xC30F (fun s => { s with inputs := [⟨0, 0xA7⟩] }) (goes 0x202 [(3, 0x07)]) = true := by
  decide +kernel

theorem test_T76_ldI :
    vector 0x200 0xA2F0 id (fun s => { s with pc := 0x202, I := 0x02F0 }) = true := by decide +kernel
theorem test_T78_addI :
    vector 0x200 0xF21E (fun s => { regs [(2, 0x01)] s with I := 0x0FFF })
      (fun s => { s with pc := 0x202, I := 0x1000 }) = true ∧
    vector 0x200 0xF21E (fun s => { regs [(2, 0x02), (15, 0x07)] s with I := 0xFFFF })
      (fun s => { s with pc := 0x202, I := 0x0001 }) = true := by decide +kernel
theorem test_T81_ldF :
    vector 0x200 0xF429 (regs [(4, 0x1A)]) (fun s => { s with pc := 0x202, I := 0x0082 }) = true := by
  decide +kernel
theorem test_T83_ldB :
    vector 0x200 0xF033 (fun s => { regs [(0, 0xEA)] s with I := 0x0300 })
      (fun s => { s with pc := 0x202, MEM :=
        [(0x200, 0xF0), (0x201, 0x33), (0x300, 0x02), (0x301, 0x03), (0x302, 0x04)] }) = true := by
  decide +kernel
theorem test_T87_ldB_wraps :
    vector 0x200 0xF033 (fun s => { regs [(0, 0x7B)] s with I := 0x1FFE })
      (fun s => { s with pc := 0x202, MEM :=
        [(0x000, 0x03), (0x200, 0xF0), (0x201, 0x33), (0xFFE, 0x01), (0xFFF, 0x02)] }) = true := by
  decide +kernel
theorem test_T88_ldMemVx :
    vector 0x200 0xF255 (fun s =>
        { regs [(0, 0x11), (1, 0x22), (2, 0x33), (3, 0x44)] s with I := 0x0400 })
      (fun s => { s with pc := 0x202, MEM :=
        [(0x200, 0xF2), (0x201, 0x55), (0x400, 0x11), (0x401, 0x22), (0x402, 0x33)] }) = true := by
  decide +kernel
theorem test_T91_ldVxMem :
    vector 0x200 0xF165 (fun s => bytes 0xFFF [0xAA] (bytes 0x000 [0xBB] { s with I := 0x0FFF }))
      (goes 0x202 [(0, 0xAA), (1, 0xBB)]) = true := by decide +kernel
/-- T92: the first glyph byte of the default table. -/
theorem test_T92_ldVxMem_font :
    vector 0x200 0xF065 (fun s => { s with I := 0x0050 }) (goes 0x202 [(0, 0xF0)]) = true := by
  decide +kernel

/-- T94: `VF` stays 01. -/
theorem test_T94_cls :
    drawing 0x00E0 (fun s => { regs [(15, 0x01)] s with
        FB := lit [(0, 0x8000000000000000), (31, 0x0000000000000001)] })
      (goes 0x202 []) [] = true := by decide +kernel
/-- T97: glyph 0 of the default table. -/
theorem test_T97_drw :
    drawing 0xD015 (fun s => { s with I := 0x0050 }) (goes 0x202 [])
      [(0, 0xF000000000000000), (1, 0x9000000000000000), (2, 0x9000000000000000),
       (3, 0x9000000000000000), (4, 0xF000000000000000)] = true := by decide +kernel
/-- T98 (collision), T104 (clipped at both edges), T106 (position from the old `VF`). -/
theorem test_T98_T104_T106_drw :
    drawing 0xD011
      (fun s => bytes 0x300 [0xC0] { s with I := 0x0300, FB := lit [(0, 0x4000000000000000)] })
      (goes 0x202 [(15, 0x01)]) [(0, 0x8000000000000000)] = true ∧
    drawing 0xD011
      (fun s => bytes 0x300 [0xFF] { regs [(0, 0xFF), (1, 0xFF)] s with I := 0x0300 })
      (goes 0x202 []) [(31, 0x0000000000000001)] = true ∧
    drawing 0xDF01
      (fun s => bytes 0x300 [0x80] { regs [(15, 0x03), (0, 0x02)] s with I := 0x0300 })
      (goes 0x202 [(15, 0x00)]) [(2, 0x1000000000000000)] = true := by decide +kernel

theorem test_T110_skp :
    vector 0x200 0xE29E (hold 0x0008 ∘ regs [(2, 0x13)]) (goes 0x204 []) = true ∧
    vector 0x200 0xE29E (hold 0xFFDF ∘ regs [(2, 0x05)]) (goes 0x202 []) = true := by decide +kernel
theorem test_T112_sknp :
    vector 0x200 0xE2A1 (hold 0x0020 ∘ regs [(2, 0x05)]) (goes 0x202 []) = true ∧
    vector 0x200 0xE2A1 (hold 0x0000 ∘ regs [(2, 0x05)]) (goes 0x204 []) = true := by decide +kernel
theorem test_T115_ldVxDt :
    vector 0x200 0xF307 (fun s => { s with dt := 16 })
      (fun s => { goes 0x202 [(3, 0x10)] s with dt := 15 }) = true := by decide +kernel
theorem test_T117_ldVxK_stall :
    vector 0x200 0xF50A (fun s => hold 0x0000 { regs [(5, 0x77)] s with dt := 2, st := 1 })
      (fun s => { s with dt := 1, st := 0 }) = true ∧
    vector 0xFFE 0xF50A (hold 0x0000) id = true := by decide +kernel
theorem test_T119_ldVxK_key :
    vector 0x200 0xF50A (hold 0x8210) (goes 0x202 [(5, 0x04)]) = true ∧
    vector 0x200 0xF50A (hold 0x0001 ∘ regs [(5, 0x77)]) (goes 0x202 [(5, 0x00)]) = true := by
  decide +kernel
theorem test_T122_ldDtVx :
    vector 0x200 0xF315 (regs [(3, 0x05)]) (fun s => { s with pc := 0x202, dt := 4 }) = true := by
  decide +kernel
theorem test_T125_ldStVx :
    vector 0x200 0xF318 (fun s => { regs [(3, 0xFF)] s with dt := 1 })
      (fun s => { s with pc := 0x202, dt := 0, st := 254 }) = true := by decide +kernel

/-- R34: `Cycle` with inputs leaves the model's own list of inputs as it was. -/
theorem test_cycle_presents_inputs :
    (match cycle 0x0008 0x00 (placed 0x200 0xF50A id) with
      | .next t => decide (t.reg 5 = 0x03 ∧ t.pc = 0x202 ∧ t.inputs = [])
      | _ => false) = true := by decide +kernel

/-- L2.7: `Reset` with the image 12 00, and with 3585 bytes. -/
theorem test_reset_image :
    (match resetWith ⟨defaultFont.toArray, rfl⟩ [0x12, 0x00] with
      | .ok s => decide (s.memRead 0x200 = 0x12 ∧ s.memRead 0x201 = 0x00 ∧ s.memRead 0x04F = 0x00 ∧
          s.memRead 0x050 = 0xF0 ∧ s.memRead 0x054 = 0xF0 ∧ s.memRead 0x09C = 0x80 ∧
          s.memRead 0x09F = 0x80 ∧ s.memRead 0x0A0 = 0x00 ∧ s.MEM = [(0x200, 0x12)])
      | .error _ => false) = true ∧
    (resetWith ⟨defaultFont.toArray, rfl⟩ (List.replicate 3585 0xAA)).toOption = none := by
  decide +kernel

/-! ### Witnesses: for every obligation with hypotheses, a state that meets them

Obligations without hypotheses (FieldsAreTheNamedBits, SampleWordsDecode, DecodeOfEncode,
TableAgreesWithSelectors, EveryCycleAnswersANextState, JpSetsPc, SkipsTestRegisters, JpV0AddsTheOffset,
RegisterLoadsCopy, AddByteWrapsWithoutFlag, LogicIsBitwiseWithoutFlag, RndMasksTheRandomByte,
IndexInstructionsWriteOnlyI, RegisterLoadReadsTheRange, ClsTurnsEveryCellOff, KeySkipsTestTheSample,
ResetValues) need none. -/

/-- The state a step answers, when it answers one. -/
def answer (r : Result) : State :=
  match r with
  | .next t => t
  | _ => State.reset

/-- A step answers a next state. -/
def isNext (r : Result) : Bool :=
  match r with
  | .next _ => true
  | _ => false

theorem eq_next_answer (r : Result) (h : isNext r = true) : r = .next (answer r) := by
  cases r with
  | next t => rfl
  | fault f => cases f
  | refused q => cases h

theorem answer_of_eq_next {r : Result} {t : State} (h : r = .next t) : answer r = t := by
  rw [h]; rfl

/-- A state that executes `w` at 0x200. -/
def at200 (w : Word) : State := placed 0x200 w id

/-- `CALL` with sixteen calls open. -/
def fullStack : State := placed 0x200 0x2300 fun s => { s with sp := 16 }

/-- The core halted by that `CALL`. -/
def halted : State := { fullStack with fault := .stackOverflow }

/-- OpcodeRowsAreDisjoint has no hypothesis; a row of the table does match a word. -/
theorem witness_OpcodeRowsAreDisjoint :
    ∃ r ∈ opcodeTable, r.hit 0x8014 = true ∧ r.mnemonic = "ADD_Vx__Vy" := by
  refine ⟨_, List.mem_append_left _ (List.mem_append_left _ (List.mem_append_right _
    (List.mem_of_getElem? (i := 4) rfl))), ?_⟩
  decide +kernel

theorem witness_UndefinedWordsExactly :
    decode 0x0001 = .undefinedWord ∧ decode 0x800F = .undefinedWord ∧
    decode 0xE000 = .undefinedWord ∧ decode 0xF066 = .undefinedWord := by decide +kernel

theorem witness_AliasDiffersInIgnoredBitsOnly :
    ∃ r ∈ opcodeTable, r.hit 0x512F = true ∧ r.ignored = 0x000F ∧
      decode 0x512F = .instr (.seReg 1 2) := by
  refine ⟨_, List.mem_append_left _ (List.mem_append_left _ (List.mem_append_left _
    (List.mem_of_getElem? (i := 6) rfl))), ?_⟩
  decide +kernel

theorem witness_StepRunsTheDecodedInstruction :
    halted.Halted ∧
    ((at200 0x8008).Running ∧ decode (at200 0x8008).fetchWord = .undefinedWord) ∧
    (∃ t, (at200 0x1234).About (.jp 0x234) ∧ exec (.jp 0x234) (at200 0x1234).fetched = .next t ∧
      t.Running) ∧
    (∃ t, (at200 0x00EE).About .ret ∧ exec .ret (at200 0x00EE).fetched = .next t ∧ t.Halted) :=
  ⟨by decide +kernel, by decide +kernel,
    ⟨_, by decide +kernel, eq_next_answer _ (by decide +kernel), by decide +kernel⟩,
    ⟨_, by decide +kernel, eq_next_answer _ (by decide +kernel), by decide +kernel⟩⟩

theorem witness_FetchIsBigEndianAndWraps :
    (placed 0xFFF 0x6A11 id).pc = 0xFFF ∧ (placed 0xFFF 0x6A11 id).fetchWord = 0x6A11 := by
  decide +kernel

theorem witness_PlacedWordIsFetched :
    State.Inv { State.reset with pc := 0xFFF } ∧ 0x1001 % 4096 ≠ 0xFFF ∧
      0x1001 % 4096 ≠ (0xFFF + 1) % 4096 := by decide +kernel

theorem witness_UndefinedWordIsNoOp :
    (placed 0xFFE 0xE09F id).Running ∧
      decode (placed 0xFFE 0xE09F id).fetchWord = .undefinedWord := by decide +kernel

theorem witness_HaltedCycleIsIdentity :
    halted.Halted ∧ State.Halted { State.reset with fault := .stackUnderflow } := by decide +kernel

theorem witness_HaltedForEver :
    ∃ t, fullStack.Running ∧ step fullStack = .next t ∧ t.Halted :=
  ⟨_, by decide +kernel, eq_next_answer _ (by decide +kernel), by decide +kernel⟩

theorem witness_OnlyCallAndRetFaultPrecisely :
    (∃ t, fullStack.Running ∧ step fullStack = .next t ∧ t.Halted) ∧
    (∃ t, (at200 0x00EE).Running ∧ step (at200 0x00EE) = .next t ∧ t.Halted) :=
  ⟨⟨_, by decide +kernel, eq_next_answer _ (by decide +kernel), by decide +kernel⟩,
    ⟨_, by decide +kernel, eq_next_answer _ (by decide +kernel), by decide +kernel⟩⟩

/-- A timer at zero, and both timer writes. -/
theorem witness_TimersTickOncePerCycle :
    (∃ t, step (at200 0x8008) = .next t ∧ (at200 0x8008).Running ∧ t.Running) ∧
    (∃ t, step (placed 0x200 0xF315 (regs [(3, 0x05)])) = .next t ∧ t.Running ∧ t.dt = 4) ∧
    (∃ t, step (placed 0x200 0xF318 (regs [(3, 0xFF)])) = .next t ∧ t.Running ∧ t.st = 254) :=
  ⟨⟨_, eq_next_answer _ (by decide +kernel), by decide +kernel⟩,
    ⟨_, eq_next_answer _ (by decide +kernel), by decide +kernel⟩,
    ⟨_, eq_next_answer _ (by decide +kernel), by decide +kernel⟩⟩

theorem witness_PcAfterEveryInstruction :
    (∃ t, (placed 0xFFE 0x3000 id).About (.seByte 0 0x00) ∧
      step (placed 0xFFE 0x3000 id) = .next t ∧ t.Running) ∧
    (∃ t, step (placed 0xFFE 0x8008 id) = .next t ∧
      decode (placed 0xFFE 0x8008 id).fetchWord = .undefinedWord) ∧
    (∃ t, fullStack.Running ∧ step fullStack = .next t ∧ t.Halted) :=
  ⟨⟨_, by decide +kernel, eq_next_answer _ (by decide +kernel), by decide +kernel⟩,
    ⟨_, eq_next_answer _ (by decide +kernel), by decide +kernel⟩,
    ⟨_, by decide +kernel, eq_next_answer _ (by decide +kernel), by decide +kernel⟩⟩

theorem straight_of_ldByte {s : State} {x : Reg} {kk : Byte}
    (h : decode s.fetchWord = .instr (.ldByte x kk)) : s.Straight := by
  unfold State.Straight
  rw [h]
  trivial

theorem straight_of_skip_not_taken {s : State} {x : Reg} {kk : Byte}
    (h : decode s.fetchWord = .instr (.seByte x kk)) (hk : s.reg x ≠ kk) : s.Straight := by
  unfold State.Straight
  rw [h]
  exact hk

theorem straightLine_succ {k : Nat} {s : State} (run : s.Running) (straight : s.Straight)
    (rest : StraightLine k (answer (step s))) : StraightLine (k + 1) s :=
  ⟨run, straight, fun _ h => answer_of_eq_next h ▸ rest⟩

/-- Two straight-line words across the wrap: `LD VA, 11` at 0xFFE, then a skip that is not taken at
0x000. -/
def twoWords : State := placed 0xFFE 0x6A11 (bytes 0x000 [0x3A, 0x12])

theorem witness_StraightLineAdvancesByTwo :
    twoWords.Inv ∧ twoWords.Running ∧ StraightLine 2 twoWords :=
  ⟨by decide +kernel, by decide +kernel,
    straightLine_succ (by decide +kernel)
      (straight_of_ldByte (x := 10) (kk := 0x11) (by decide +kernel))
      (straightLine_succ (by decide +kernel)
        (straight_of_skip_not_taken (x := 10) (kk := 0x12) (by decide +kernel) (by decide +kernel))
        trivial)⟩

theorem witness_InvariantIsKept :
    ∃ t, twoWords.Inv ∧ step twoWords = .next t ∧ t.pc = 0x000 ∧ t.reg 10 = 0x11 :=
  ⟨_, by decide +kernel, eq_next_answer _ (by decide +kernel), by decide +kernel⟩

theorem witness_ResetMeetsTheInvariant :
    ∃ s, resetWith (Vector.replicate 80 0xFF) [0x12, 0x00] = .ok s := ⟨_, rfl⟩

theorem witness_InputsMatterOnlyWhereRead :
    (∀ x, decode (at200 0xC30F).fetchWord ≠ .instr (.skp x) ∧
      decode (at200 0xC30F).fetchWord ≠ .instr (.sknp x) ∧
      decode (at200 0xC30F).fetchWord ≠ .instr (.ldVxK x)) ∧
    (∀ x kk, decode (at200 0xF50A).fetchWord ≠ .instr (.rnd x kk)) := by
  have h : decode (at200 0xC30F).fetchWord = .instr (.rnd 3 0x0F) := by decide +kernel
  have k : decode (at200 0xF50A).fetchWord = .instr (.ldVxK 5) := by decide +kernel
  rw [h, k]
  exact ⟨fun x => ⟨nofun, nofun, nofun⟩, nofun⟩

theorem witness_IrCarriesNoInformation :
    ∃ t, (at200 0x6A11).Running ∧ step (at200 0x6A11) = .next t ∧ t.Running :=
  ⟨_, by decide +kernel, eq_next_answer _ (by decide +kernel), by decide +kernel⟩

/-- One call open, and a second stack with other stale entries. -/
theorem witness_StaleStackEntriesAreUnread :
    let s : State := placed 0x200 0x00EE fun s => { s with sp := 1 }
    ∀ i : Fin 16, i.val < s.sp.val → (s.STK.set 1 0x0ABC)[i] = s.STK[i] := by decide +kernel

theorem witness_RegistersWrittenAreThoseListed :
    ∃ t, (at200 0x6FAB).Running ∧ step (at200 0x6FAB) = .next t ∧ t.reg 15 ≠ (at200 0x6FAB).reg 15 :=
  ⟨_, by decide +kernel, eq_next_answer _ (by decide +kernel), by decide +kernel⟩

theorem witness_SpecialStateHasFewWriters :
    (∃ t, step (at200 0xA2F0) = .next t ∧ t.I ≠ (at200 0xA2F0).I) ∧
    (∃ t, step (at200 0x2300) = .next t ∧ t.sp ≠ (at200 0x2300).sp ∧
      t.STK ≠ (at200 0x2300).STK) ∧
    (∃ t, step (placed 0x200 0xF033 (regs [(0, 0xEA)])) = .next t ∧
      t.memRead 0 ≠ (placed 0x200 0xF033 (regs [(0, 0xEA)])).memRead 0) ∧
    (∃ t, step (placed 0x200 0xD015 fun s => { s with I := 0x0050 }) = .next t ∧
      t.FB ≠ Framebuffer.blank ∧
      (placed 0x200 0xD015 fun s => { s with I := 0x0050 }).FB = Framebuffer.blank) :=
  ⟨⟨_, eq_next_answer _ (by decide +kernel), by decide +kernel⟩,
    ⟨_, eq_next_answer _ (by decide +kernel), by decide +kernel⟩,
    ⟨_, eq_next_answer _ (by decide +kernel), by decide +kernel⟩,
    ⟨_, eq_next_answer _ (by decide +kernel), by decide +kernel⟩⟩

/-- Sixteen open calls; and the empty stack. -/
theorem witness_RetPopsTheReturnAddress :
    0 < (placed 0x200 0x00EE fun s => { s with sp := 16 }).sp.val ∧
    (at200 0x00EE).About .ret ∧ (at200 0x00EE).sp = 0 := by decide +kernel

/-- Fifteen open calls; and sixteen. -/
theorem witness_CallPushesTheReturnAddress :
    (placed 0x200 0x2300 fun s => { s with sp := 15 }).sp.val < 16 ∧
    fullStack.About (.call 0x300) ∧ fullStack.sp = 16 := by decide +kernel

theorem witness_RetUndoesCall :
    let s : State := { State.reset with pc := 0xFFF, sp := 15 }
    ∃ t, s.pc.toNat < 4096 ∧ s.sp.val < 16 ∧ exec (.call 0xABC) s = .next t :=
  ⟨_, by decide, by decide, rfl⟩

theorem witness_IdleLoopStaysEnded :
    (placed 0xFFF 0x1FFF id).Inv ∧ (placed 0xFFF 0x1FFF id).Ended := by decide +kernel

/-- AddRegSetsCarry, SubtractionsSetStrictlyGreater, ShiftsDropOneBitIntoTheFlag: a destination that is
not `VF`. -/
theorem witness_flag_clause : (14 : Reg) ≠ 15 := by decide

/-- BcdStoresThreeDigits and RegisterDumpStoresTheRange: memory in its canonical form, and a range
that wraps. -/
theorem witness_BcdStoresThreeDigits_RegisterDumpStoresTheRange :
    let s : State := bytes 0xFFF [0x77] { State.reset with I := 0xFFFF }
    Memory.wf s.MEM = true ∧ (s.I.toNat + 1) % 4096 = 0 ∧ (15 : Reg) ≤ 15 := by decide +kernel

/-- The registers are dumped at 0xFFE upward, then cleared, then loaded. -/
theorem witness_DumpThenLoadRestores :
    let s : State := regs [(0, 0x11), (2, 0x33)] { State.reset with I := 0x0FFE }
    ∃ t u v, Memory.wf s.MEM = true ∧ exec (.ldMemVx 2) s = .next t ∧ u.I = s.I ∧
      (∀ i : Reg, i ≤ 2 → u.memRead (s.I.toNat + i.val) = t.memRead (s.I.toNat + i.val)) ∧
      exec (.ldVxMem 2) u = .next v ∧ u.reg 2 ≠ s.reg 2 :=
  ⟨_, { State.reset with
        I := 0x0FFE
        MEM := (answer (exec (.ldMemVx 2)
          (regs [(0, 0x11), (2, 0x33)] { State.reset with I := 0x0FFE }))).MEM }, _,
    by decide +kernel, eq_next_answer _ (by decide +kernel), by decide +kernel, by decide +kernel,
    eq_next_answer _ (by decide +kernel), by decide +kernel⟩

/-- T93: a dump over the word that comes next. -/
theorem witness_StoreIsSeenByTheNextFetch :
    let s : State := placed 0x200 0xF155 fun s => { regs [(0, 0x60), (1, 0x2A)] s with I := 0x0202 }
    ∃ t, s.Inv ∧ s.About (.ldMemVx 1) ∧ step s = .next t ∧ (0 : Reg) ≤ 1 ∧
      (s.I.toNat + (0 : Reg).val) % 4096 = t.pc.toNat ∧
      (s.I.toNat + (1 : Reg).val) % 4096 = (t.pc.toNat + 1) % 4096 ∧ t.fetchWord = 0x602A :=
  ⟨_, by decide +kernel, by decide +kernel, eq_next_answer _ (by decide +kernel), by decide +kernel⟩

/-- A sprite pixel on a cell that is on; and the same sprite on a blank screen, at the last row and
column. -/
theorem witness_DrwIsExclusiveOrWithCollision :
    let s : State := bytes 0x300 [0xC0] { regs [(0, 0x3F), (1, 0x1F)] State.reset with I := 0x0300 }
    (∃ yy < 32, ∃ xx < 64,
      Framebuffer.cell ({ s with FB := lit [(31, 1)] } : State).FB yy xx = true ∧
      State.spriteCovers { s with FB := lit [(31, 1)] } 0 1 1 yy xx = true) ∧
    (∀ yy < 32, ∀ xx < 64, Framebuffer.cell s.FB yy xx = true →
      s.spriteCovers 0 1 1 yy xx = false) := by
  refine ⟨⟨31, by decide, 63, by decide, by decide +kernel⟩, fun yy hy xx hx h => ?_⟩
  simp [bytes, regs, State.reset, Framebuffer.cell] at h

theorem witness_DrawingTwiceRestores :
    let s : State := bytes 0x300 [0x80] { State.reset with I := 0x0300 }
    let u : State := { s with FB := (answer (exec (.drw 0 1 1) s)).FB }
    ∃ t v, exec (.drw 0 1 1) s = .next t ∧ u.FB = t.FB ∧ u.reg 0 = s.reg 0 ∧ u.reg 1 = s.reg 1 ∧
      u.I = s.I ∧ KeepsMem s u ∧ exec (.drw 0 1 1) u = .next v ∧
      ∃ yy < 32, ∃ xx < 64, Framebuffer.cell s.FB yy xx = false ∧
        Framebuffer.cell t.FB yy xx = true :=
  ⟨_, _, eq_next_answer _ (by decide +kernel), rfl, rfl, rfl, rfl, fun _ => rfl,
    eq_next_answer _ (by decide +kernel), 0, by decide, 0, by decide, by decide +kernel⟩

theorem witness_DrwChangesOnlyItsRectangle :
    let s : State := bytes 0x300 [0x80] { regs [(0, 0x3F), (1, 0x1F)] State.reset with I := 0x0300 }
    ∃ t, exec (.drw 0 1 15) s = .next t ∧
      Framebuffer.cell t.FB 31 63 ≠ Framebuffer.cell s.FB 31 63 :=
  ⟨_, eq_next_answer _ (by decide +kernel), by decide +kernel⟩

theorem witness_TimerInstructionsMoveTheTimers :
    (at200 0xF307).About (.ldVxDt 3) ∧ (at200 0xF315).About (.ldDtVx 3) ∧
      (at200 0xFF18).About (.ldStVx 15) := by decide +kernel

/-- No key; key 15 alone; and a stall at the top of memory. -/
theorem witness_KeyWaitStallsOrTakesTheLowestKey :
    (hold 0x0000 (at200 0xF50A)).keys = 0 ∧ (hold 0x8000 (at200 0xF50A)).keys ≠ 0 ∧
    (placed 0xFFF 0xF50A (hold 0x0000)).pc.toNat < 4096 ∧
    (placed 0xFFF 0xF50A (hold 0x0000)).About (.ldVxK 5) ∧
    (placed 0xFFF 0xF50A (hold 0x0000)).keys = 0 := by decide +kernel

/-- Program P4: two samples of zero, then keys 4 and 9; and a key at once. -/
theorem witness_KeyWaitEndsWithTheFirstKey :
    (let idle : List Inputs := [⟨0, 0x11⟩, ⟨0, 0x22⟩]
     let s : State := placed 0x204 0xF10A fun s => { s with inputs := idle ++ ⟨0x0210, 0x33⟩ :: [] }
     s.Inv ∧ s.About (.ldVxK 1) ∧ idle.length = 2 ∧ (∀ i ∈ idle, i.keys = 0) ∧
       (0x0210 : Word) ≠ 0 ∧ s.inputs = idle ++ ⟨0x0210, 0x33⟩ :: []) ∧
    (let s : State := placed 0x204 0xF10A (hold 0x8000)
     s.Inv ∧ s.About (.ldVxK 1) ∧ s.inputs = [] ++ ⟨0x8000, 0x00⟩ :: []) := by decide +kernel

theorem witness_ResetLoadsFontAndImage :
    3584 < (List.replicate 3585 (0xAA : Byte)).length ∧
    (List.replicate 3584 (0xAA : Byte)).length ≤ 3584 ∧ ([] : List Byte).length ≤ 3584 ∧
    (0x04F < 0x050 ∧ 0x0A0 ≤ 0x0A0 ∧ 0x0A0 < 0x200 ∧ 0x200 + ([] : List Byte).length ≤ 0x200) := by
  rw [List.length_replicate, List.length_replicate]
  decide

end Sys2Proof.Tests
end

section
/-! The fields of an instruction word as quotients and remainders of its value (R8, R72). -/

namespace Sys2Proof

/-- The `len` bits of a word from bit `start` up, read as an unsigned number. -/
theorem toNat_extractLsb'_eq_div_mod (w : Word) (start len : Nat) :
    (w.extractLsb' start len).toNat = w.toNat / 2 ^ start % 2 ^ len := by
  rw [BitVec.extractLsb'_toNat, Nat.shiftRight_eq_div_pow]

/-- No remainder is needed: the four bits from bit 12 up are the top of the word. -/
theorem selField_toNat (w : Word) : (selField w).toNat = w.toNat / 4096 := by
  have top : w.toNat / 4096 < 16 := Nat.div_lt_of_lt_mul w.isLt
  calc (selField w).toNat
      _ = w.toNat / 4096 % 16 := toNat_extractLsb'_eq_div_mod w 12 4
      _ = w.toNat / 4096 := Nat.mod_eq_of_lt top

theorem xField_val (w : Word) : (xField w).val = w.toNat / 256 % 16 :=
  toNat_extractLsb'_eq_div_mod w 8 4

theorem yField_val (w : Word) : (yField w).val = w.toNat / 16 % 16 :=
  toNat_extractLsb'_eq_div_mod w 4 4

/-- A field that begins at bit 0 is a remainder alone. -/
theorem toNat_extractLsb'_zero (w : Word) (len : Nat) :
    (w.extractLsb' 0 len).toNat = w.toNat % 2 ^ len := by
  rw [toNat_extractLsb'_eq_div_mod, Nat.pow_zero, Nat.div_one]

theorem nField_val (w : Word) : (nField w).val = w.toNat % 16 :=
  toNat_extractLsb'_zero w 4

theorem kkField_toNat (w : Word) : (kkField w).toNat = w.toNat % 256 :=
  toNat_extractLsb'_zero w 8

theorem nnnField_toNat (w : Word) : (nnnField w).toNat = w.toNat % 4096 :=
  toNat_extractLsb'_zero w 12

/-- Settles O1, field by field. -/
theorem fieldsAreTheNamedBits : Obligations.FieldsAreTheNamedBits := fun w =>
  ⟨selField_toNat w, xField_val w, yField_val w, nField_val w, kkField_toNat w, nnnField_toNat w⟩

end Sys2Proof
end

section
/-! What an instruction can write: one inversion lemma for `exec` (R23 to R32) and one for the cycle
(R90). -/

namespace Sys2Proof.Machine

/-! ### Block transfers as record updates -/

/-- The register dump writes memory alone (R145). -/
theorem dumpRegs_eq (s : State) (rs : List Reg) :
    s.dumpRegs rs = { s with MEM := (s.dumpRegs rs).MEM } := by
  suffices h : ∀ t : State, rs.foldl (fun t i => t.memWrite (s.dataAddr i.val) (s.reg i)) t =
      { t with MEM := (rs.foldl (fun t i => t.memWrite (s.dataAddr i.val) (s.reg i)) t).MEM } from
    h s
  induction rs with
  | nil => exact fun t => rfl
  | cons r rs ih => exact fun t => ih _

/-- The register load writes general registers alone (R146). -/
theorem loadRegs_eq (s : State) (rs : List Reg) :
    s.loadRegs rs = { s with V := (s.loadRegs rs).V } := by
  suffices h : ∀ t : State, rs.foldl (fun t i => t.setReg i (s.memRead (s.dataAddr i.val))) t =
      { t with V := (rs.foldl (fun t i => t.setReg i (s.memRead (s.dataAddr i.val))) t).V } from
    h s
  induction rs with
  | nil => exact fun t => rfl
  | cons r rs ih => exact fun t => ih _

/-! ### What an instruction's rule can answer -/

/-- What the rule of instruction `i` can make of state `s`, by the part of the state it writes. -/
inductive Effect (s : State) : Instr → State → Prop
  /-- General registers that R23 lists for the instruction. -/
  | regs {i : Instr} {V : Vector Byte 16}
      (kept : ∀ r, ¬ writesReg i r → ({ s with V := V } : State).reg r = s.reg r) :
      Effect s i { s with V := V }
  /-- `pc`, with a value it can hold (R24). -/
  | pc {i : Instr} {p : Word} (bound : s.pc.toNat < 4096 → p.toNat < 4096) :
      Effect s i { s with pc := p }
  /-- `I` (R26). -/
  | index {i : Instr} {n : Word}
      (writer : (∃ nnn, i = .ldI nnn) ∨ (∃ x, i = .ldF x) ∨ ∃ x, i = .addI x) :
      Effect s i { s with I := n }
  /-- The delay timer (R164). -/
  | delay {x : Reg} : Effect s (.ldDtVx x) { s with dt := s.reg x }
  /-- The sound timer (R165). -/
  | sound {x : Reg} : Effect s (.ldStVx x) { s with st := s.reg x }
  /-- Memory, in its canonical form (R55). -/
  | memory {i : Instr} {m : Memory} (writer : (∃ x, i = .ldB x) ∨ ∃ x, i = .ldMemVx x)
      (canonical : Memory.wf s.MEM = true → Memory.wf m = true) : Effect s i { s with MEM := m }
  /-- The framebuffer alone (R150). -/
  | clear {fb : Framebuffer} : Effect s .cls { s with FB := fb }
  /-- The framebuffer and `VF` (R152). -/
  | draw {x y : Reg} {n : RowCount} {fb : Framebuffer} {f : Bool} :
      Effect s (.drw x y n) (State.setFlag { s with FB := fb } f)
  /-- The return stack and `pc`, by a call (R112). -/
  | push {nnn : Addr} (free : s.sp.val < 16) :
      Effect s (.call nnn) ((s.pushPc free).setPc nnn.toNat)
  /-- The return stack and `pc`, by a return (R110). -/
  | pop (isOpen : 0 < s.sp.val) : Effect s .ret (s.popPc isOpen)
  /-- Nothing but the fault of a call with sixteen calls open (R170, R176). -/
  | overflow {nnn : Addr} (full : s.sp.val = 16) :
      Effect s (.call nnn) { s with fault := .stackOverflow }
  /-- Nothing but the fault of a return with none open (R171, R176). -/
  | underflow (empty : s.sp.val = 0) : Effect s .ret { s with fault := .stackUnderflow }

namespace Effect
variable {s t : State} {i : Instr}

theorem setReg {x : Reg} {v : Byte} (listed : writesReg i x) : Effect s i (s.setReg x v) :=
  .regs fun _ unlisted => reg_setReg_other s v fun eq => unlisted (eq ▸ listed)

theorem setFlagThenReg {f : Bool} {x : Reg} {v : Byte} (result : writesReg i x)
    (flag : writesReg i 15) : Effect s i (s.setFlagThenReg f x v) := by
  refine .regs fun r unlisted => (reg_setFlagThenReg s f x r v).trans ?_
  have notResult : r ≠ x := fun eq => unlisted (eq ▸ result)
  have notFlag : r ≠ 15 := fun eq => unlisted (eq ▸ flag)
  rw [if_neg notResult, if_neg notFlag]

theorem setPc {n : Nat} : Effect s i (s.setPc n) := .pc fun _ => toPc_lt n

theorem skipIf {c : Bool} : Effect s i (s.skipIf c) := by
  refine .pc fun lt => ?_
  split
  · exact toPc_lt _
  · exact lt

theorem loadRegs {x : Reg} : Effect s (.ldVxMem x) (s.loadRegs (regsUpTo x)) := by
  rw [loadRegs_eq]
  refine .regs fun r unlisted => ?_
  rw [← loadRegs_eq, loadRegs_reg, if_neg (unlisted ∘ mem_regsUpTo.mp)]

theorem dumpRegs {x : Reg} : Effect s (.ldMemVx x) (s.dumpRegs (regsUpTo x)) := by
  rw [dumpRegs_eq]
  exact .memory (.inr ⟨x, rfl⟩) (dumpRegs_wf _)

theorem of_execCall {nnn : Addr} (h : execCall nnn s = .next t) : Effect s (.call nnn) t := by
  unfold execCall at h
  split at h <;> cases h
  · exact .overflow ‹_›
  · exact .push _

theorem of_execRet (h : execRet s = .next t) : Effect s .ret t := by
  unfold execRet at h
  split at h <;> cases h
  · exact .underflow ‹_›
  · exact .pop _

theorem of_execLdVxK {x : Reg} (h : execLdVxK x s = .next t) : Effect s (.ldVxK x) t := by
  cases h
  split
  · exact .setPc
  · exact .setReg rfl

end Effect

/-- Every instruction has one of the effects. -/
theorem exec_effect {i : Instr} {s t : State} (h : exec i s = .next t) : Effect s i t := by
  cases i with
  | ldByte | addByte | ldReg | orReg | andReg | xorReg | rnd | ldVxDt =>
    cases h; exact .setReg rfl
  | addReg | subReg | subnReg | shr | shl =>
    cases h; exact .setFlagThenReg (.inl rfl) (.inr rfl)
  | jp | jpV0 => cases h; exact .setPc
  | seByte | sneByte | seReg | sneReg | skp | sknp => cases h; exact .skipIf
  | ldI nnn => cases h; exact .index (.inl ⟨nnn, rfl⟩)
  | ldF x => cases h; exact .index (.inr (.inl ⟨x, rfl⟩))
  | addI x => cases h; exact .index (.inr (.inr ⟨x, rfl⟩))
  | ldDtVx => cases h; exact .delay
  | ldStVx => cases h; exact .sound
  | ldB x =>
    cases h
    exact .memory (.inl ⟨x, rfl⟩) fun wf => memWrite_wf _ _ (memWrite_wf _ _ (memWrite_wf _ _ wf))
  | cls => cases h; exact .clear
  | drw => cases h; exact .draw
  | ldVxMem => cases h; exact .loadRegs
  | ldMemVx => cases h; exact .dumpRegs
  | ldVxK => exact .of_execLdVxK h
  | call => exact .of_execCall h
  | ret => exact .of_execRet h

/-! ### What a cycle can answer -/

theorem step_halted {s : State} (halted : s.Halted) : step s = .next s := by
  unfold step
  split
  · contradiction
  · rfl
  · rfl

theorem step_undefinedWord {s : State} (running : s.Running)
    (word : decode s.fetchWord = .undefinedWord) :
    step s = .next s.beginCycle.completeCycle := by
  have ends : s.endCycle s.beginCycle = s.beginCycle.completeCycle := endCycle_running s running
  rw [step, running, word, ← ends]
  rfl

theorem step_instr {s : State} {i : Instr} (running : s.Running)
    (word : decode s.fetchWord = .instr i) :
    step s = finishCycle s (exec i s.beginCycle) := by
  rw [step, running, word]

/-- A cycle of a running core executes nothing for an undefined word, or an instruction that runs,
or one that raises a fault (R90). -/
theorem step_cases {s t : State} (running : s.Running) (h : step s = .next t) :
    (decode s.fetchWord = .undefinedWord ∧ t = s.beginCycle.completeCycle) ∨
    ∃ i u, decode s.fetchWord = .instr i ∧ exec i s.beginCycle = .next u ∧
      (u.Running ∧ t = u.completeCycle ∨ u.Halted ∧ t = { s with fault := u.fault }) := by
  cases word : decode s.fetchWord with
  | undefinedWord =>
    rw [step_undefinedWord running word] at h
    cases h
    exact .inl ⟨rfl, rfl⟩
  | instr i =>
    rw [step_instr running word] at h
    cases run : exec i s.beginCycle with
    | next u =>
      rw [run] at h
      cases h
      refine .inr ⟨i, u, rfl, run, ?_⟩
      by_cases ok : u.Running
      · exact .inl ⟨ok, endCycle_running s ok⟩
      · exact .inr ⟨ok, endCycle_faulted s ok⟩
    | fault r => exact nomatch r
    | refused r => rw [run] at h; cases h

end Sys2Proof.Machine
end

section
/-! Settlements about the invariant, `pc` and the writers of each part of the state (R22 to R32,
R43). -/

namespace Sys2Proof.Machine

/-! ### The invariant (R43) -/

/-- A push of a value below 4096 keeps the stack entries below 4096. -/
theorem pushPc_bounded {s : State} (free : s.sp.val < 16) (pc : s.pc.toNat < 4096)
    (stack : ∀ i : Fin 16, s.STK[i].toNat < 4096) (i : Fin 16) :
    (s.pushPc free).STK[i].toNat < 4096 := by
  simp only [pushPc_STK, Fin.getElem_fin, Vector.getElem_set]
  split
  · exact pc
  · exact stack i

theorem Effect.inv {s t : State} {i : Instr} (effect : Effect s i t) (inv : s.Inv) : t.Inv := by
  obtain ⟨pc, stack, mem⟩ := inv
  cases effect with
  | regs | index | delay | sound | clear | draw | overflow | underflow => exact ⟨pc, stack, mem⟩
  | pc bound => exact ⟨bound pc, stack, mem⟩
  | memory _ canonical => exact ⟨pc, stack, canonical mem⟩
  | push free => exact ⟨toPc_lt _, pushPc_bounded free pc stack, mem⟩
  | pop _ => exact ⟨toPc_lt _, stack, mem⟩

theorem beginCycle_inv {s : State} (inv : s.Inv) : s.beginCycle.Inv := ⟨toPc_lt _, inv.2⟩

/-- Settles O19: fetch and advance, every effect of an instruction, the tick and the fault path each
keep the invariant. -/
theorem invariantIsKept : Obligations.InvariantIsKept := by
  intro s t inv h
  by_cases running : s.Running
  · obtain ⟨-, rfl⟩ | ⟨i, u, -, run, ⟨-, rfl⟩ | ⟨-, rfl⟩⟩ := step_cases running h
    · exact beginCycle_inv inv
    · exact (exec_effect run).inv (beginCycle_inv inv)
    · exact inv
  · rw [step_halted running] at h
    cases h
    exact inv

/-! ### `pc` after a cycle (R24) -/

/-- A skip over the advanced `pc` lands two past it (R113). -/
theorem beginCycle_skipIf_pc (s : State) {c : Bool} {p : Prop} [Decidable p]
    (test : c = true ↔ p) :
    (s.beginCycle.skipIf c).pc.toNat =
      if p then (s.pc.toNat + 4) % 4096 else (s.pc.toNat + 2) % 4096 := by
  rw [skipIf_pc]
  by_cases skips : p
  · rw [if_pos skips, if_pos (test.mpr skips), beginCycle_pc, toPc_toNat, toPc_toNat]
    omega
  · rw [if_neg skips, if_neg (skips ∘ test.mp), beginCycle_pc, toPc_toNat]

/-- The key wait stays where it is while no key is pressed (R163). -/
theorem execLdVxK_pc {x : Reg} {s u : State} (h : execLdVxK x s.beginCycle = .next u) :
    u.pc.toNat = s.pcAfter (.ldVxK x) := by
  cases h
  change (State.pc (if s.keys = 0 then s.beginCycle.stall else _)).toNat =
    if s.keys = 0 then _ else _
  by_cases idle : s.keys = 0
  · rw [if_pos idle, if_pos idle, stall_pc, beginCycle_pc, stall_undoes_advance, toPc_toNat]
  · rw [if_neg idle, if_neg idle, setReg_pc, beginCycle_pc, toPc_toNat]

theorem toPc_addr_toNat (nnn : Addr) : (toPc nnn.toNat).toNat = nnn.toNat :=
  (toPc_toNat _).trans (Nat.mod_eq_of_lt nnn.isLt)

theorem execCall_pc {nnn : Addr} {s u : State} (h : execCall nnn s.beginCycle = .next u)
    (running : u.Running) : u.pc.toNat = s.pcAfter (.call nnn) := by
  unfold execCall at h
  split at h <;> cases h
  · cases running
  · exact toPc_addr_toNat nnn

/-- The entry a return pops, read with a default as in the table of R24. -/
theorem topEntry_eq_getD (s : State) :
    s.STK[s.sp.val - 1]'(by omega) = s.STK.getD (s.sp.val - 1) 0 := by
  have inside : s.sp.val - 1 < 16 := by omega
  simp [Vector.getD, inside]

theorem execRet_pc {s u : State} (h : execRet s.beginCycle = .next u) (running : u.Running) :
    u.pc.toNat = s.pcAfter .ret := by
  unfold execRet at h
  split at h <;> cases h
  · cases running
  · exact (toPc_toNat _).trans (congrArg (fun w : Word => w.toNat % 4096) (topEntry_eq_getD s))

/-- Executing after fetch and advance leaves `pc` where the table of R24 says. -/
theorem exec_pc {i : Instr} {s u : State} (h : exec i s.beginCycle = .next u)
    (running : u.Running) : u.pc.toNat = s.pcAfter i := by
  cases i with
  | jp nnn => cases h; exact toPc_addr_toNat nnn
  | jpV0 => cases h; exact toPc_toNat _
  | call => exact execCall_pc h running
  | ret => exact execRet_pc h running
  | seByte | seReg => cases h; exact beginCycle_skipIf_pc s decide_eq_true_iff
  | sneByte | sneReg =>
    cases h; exact (beginCycle_skipIf_pc s decide_eq_true_iff).trans (ite_not ..)
  | skp => cases h; exact beginCycle_skipIf_pc s Iff.rfl
  | sknp => cases h; exact (beginCycle_skipIf_pc s Bool.not_iff_not).trans (ite_not ..)
  | ldVxK => exact execLdVxK_pc h
  | ldMemVx => cases h; rw [dumpRegs_pc]; exact toPc_toNat _
  | ldVxMem => cases h; rw [loadRegs_pc]; exact toPc_toNat _
  | cls | ldByte | addByte | ldReg | orReg | andReg | xorReg | addReg | subReg | shr | subnReg | shl
  | ldI | rnd | drw | ldVxDt | ldDtVx | ldStVx | addI | ldF | ldB => cases h; exact toPc_toNat _

/-- Settles O17: the three outcomes of a cycle, one for each clause. -/
theorem pcAfterEveryInstruction : Obligations.PcAfterEveryInstruction := by
  intro s t running h
  obtain ⟨word, rfl⟩ | ⟨i, u, word, run, ⟨ok, rfl⟩ | ⟨faulted, rfl⟩⟩ := step_cases running h
  · exact ⟨fun i eq => by simp [word] at eq, fun _ => toPc_toNat _,
      fun halted => absurd running halted⟩
  · refine ⟨fun j eq _ => ?_, fun eq => by simp [word] at eq, fun halted => absurd ok halted⟩
    cases word.symm.trans eq
    exact (congrArg BitVec.toNat (completeCycle_pc u)).trans (exec_pc run ok)
  · exact ⟨fun _ _ ok => absurd ok faulted, fun eq => by simp [word] at eq, fun _ => rfl⟩

/-! ### Who writes what (R22, R23, R26, R27, R31, R32) -/

/-- What fetch, advance, tick and the fault path leave as it is changes in a cycle only if the word
decodes to an instruction with an effect that changes it. -/
theorem writer_of_changed {α : Type} (view : State → α) {P : Instr → Prop} {s t : State}
    (writer : ∀ {i u}, Effect s.beginCycle i u → view u ≠ view s.beginCycle → P i)
    (running : s.Running) (h : step s = .next t) (changed : view t ≠ view s)
    (fetch : view s.beginCycle = view s := by rfl)
    (complete : ∀ u, view (State.completeCycle u) = view u := by exact fun _ => rfl)
    (stop : ∀ f, view { s with fault := f } = view s := by exact fun _ => rfl) :
    ∃ i, decode s.fetchWord = .instr i ∧ P i := by
  obtain ⟨-, rfl⟩ | ⟨i, u, word, run, ⟨-, rfl⟩ | ⟨-, rfl⟩⟩ := step_cases running h
  · exact absurd ((complete _).trans fetch) changed
  · exact ⟨i, word, writer (exec_effect run) (by rwa [fetch, ← complete])⟩
  · exact absurd (stop _) changed

/-- An effect leaves the registers that R23 does not list. -/
theorem Effect.reg_unlisted {s t : State} {i : Instr} {r : Reg} (effect : Effect s i t)
    (unlisted : ¬ writesReg i r) : t.reg r = s.reg r := by
  cases effect with
  | regs kept => exact kept r unlisted
  | draw => exact reg_setReg_other _ _ unlisted
  | pc | index | delay | sound | memory | clear | push | pop | overflow | underflow => rfl

/-- Settles O25: a changed register is changed by the instruction's effect, which leaves the
unlisted ones. -/
theorem registersWrittenAreThoseListed : Obligations.RegistersWrittenAreThoseListed := by
  intro s t running h r
  exact writer_of_changed (·.reg r) (fun effect => not_imp_comm.mp effect.reg_unlisted) running h

section
variable {s t : State} {i : Instr}

theorem Effect.index_writer (effect : Effect s i t) (changed : t.I ≠ s.I) :
    (∃ nnn, i = .ldI nnn) ∨ (∃ x, i = .ldF x) ∨ ∃ x, i = .addI x := by
  cases effect with
  | index writer => exact writer
  | _ => exact absurd rfl changed

theorem Effect.stack_writer (effect : Effect s i t) (changed : (t.sp, t.STK) ≠ (s.sp, s.STK)) :
    i = .ret ∨ ∃ nnn, i = .call nnn := by
  cases effect with
  | pop => exact .inl rfl
  | push => exact .inr ⟨_, rfl⟩
  | _ => exact absurd rfl changed

theorem Effect.memory_writer {a : Nat} (effect : Effect s i t)
    (changed : t.memRead a ≠ s.memRead a) :
    (∃ x, i = .ldB x) ∨ ∃ x, i = .ldMemVx x := by
  cases effect with
  | memory writer => exact writer
  | _ => exact absurd rfl changed

theorem Effect.screen_writer (effect : Effect s i t) (changed : t.FB ≠ s.FB) :
    i = .cls ∨ ∃ x y n, i = .drw x y n := by
  cases effect with
  | clear => exact .inl rfl
  | draw => exact .inr ⟨_, _, _, rfl⟩
  | _ => exact absurd rfl changed

end

/-- Settles O26: for each part of the state, the effects that change it. -/
theorem specialStateHasFewWriters : Obligations.SpecialStateHasFewWriters := by
  intro s t running h
  refine ⟨writer_of_changed (·.I) Effect.index_writer running h, fun changed => ?_,
    fun ⟨a, changed⟩ => writer_of_changed (·.memRead a) Effect.memory_writer running h changed,
    writer_of_changed (·.FB) Effect.screen_writer running h⟩
  have differ : (t.sp, t.STK) ≠ (s.sp, s.STK) := by simpa [imp_iff_not_or] using changed
  exact writer_of_changed (fun s => (s.sp, s.STK)) Effect.stack_writer running h differ

end Sys2Proof.Machine
end

section
/-! Settlements about what carries no information: `ir`, `st`, and the stack entries at or above
`sp` (R29, R31, R42). -/

namespace Sys2Proof.Machine

/-! ### `ir` (R29) -/

/-- Settles O22: fetch overwrites `ir` before anything could read it, and a cycle that runs keeps
nothing of the state before fetch. -/
theorem irCarriesNoInformation : Obligations.IrCarriesNoInformation := by
  intro s t w running h ok
  have same : State.beginCycle { s with ir := w } = s.beginCycle := rfl
  obtain ⟨word, rfl⟩ | ⟨i, u, word, run, ⟨runs, rfl⟩ | ⟨faulted, rfl⟩⟩ := step_cases running h
  · exact step_undefinedWord (s := { s with ir := w }) running word
  · rw [step_instr (s := { s with ir := w }) running word, same, run, finishCycle_next,
      endCycle_running _ runs]
  · exact absurd ok faulted

/-! ### Two runs side by side -/

/-- A relation between states that the frame of a cycle cannot tell apart and that every instruction
keeps. -/
structure CycleRelation (R : State → State → Prop) : Prop where
  fault_eq : ∀ {s s'}, R s s' → s'.fault = s.fault
  fetchWord_eq : ∀ {s s'}, R s s' → s'.fetchWord = s.fetchWord
  inputs_eq : ∀ {s s'}, R s s' → s'.inputs = s.inputs
  present : ∀ {s s'} (l : List Inputs), R s s' → R { s with inputs := l } { s' with inputs := l }
  fetch : ∀ {s s'}, R s s' → R s.beginCycle s'.beginCycle
  exec : ∀ {s s'} (i : Instr), R s s' →
    ∃ t t', exec i s = .next t ∧ exec i s' = .next t' ∧ R t t'
  complete : ∀ {s s'}, R s s' → R s.completeCycle s'.completeCycle
  stop : ∀ {s s'} (f : FaultCode), R s s' → R { s with fault := f } { s' with fault := f }

namespace CycleRelation
variable {R : State → State → Prop} {s s' : State}

theorem endCycle (rel : CycleRelation R) {t t' : State} (before : R s s') (after : R t t') :
    R (s.endCycle t) (s'.endCycle t') := by
  have same := rel.fault_eq after
  by_cases ok : t.Running
  · rw [endCycle_running s ok, endCycle_running s' (same.trans ok)]
    exact rel.complete after
  · rw [endCycle_faulted s ok, endCycle_faulted s' fun ok' => ok (same.symm.trans ok'), same]
    exact rel.stop _ before

theorem step (rel : CycleRelation R) (h : R s s') :
    ∃ t t', step s = .next t ∧ step s' = .next t' ∧ R t t' := by
  have same := rel.fault_eq h
  by_cases running : s.Running
  · have running' : s'.Running := same.trans running
    have words := rel.fetchWord_eq h
    cases word : decode s.fetchWord with
    | undefinedWord =>
      exact ⟨_, _, step_undefinedWord running word, step_undefinedWord running' (words ▸ word),
        rel.complete (rel.fetch h)⟩
    | instr i =>
      obtain ⟨t, t', run, run', after⟩ := rel.exec i (rel.fetch h)
      refine ⟨_, _, ?_, ?_, rel.endCycle h after⟩
      · rw [step_instr running word, run, finishCycle_next]
      · rw [step_instr running' (words ▸ word), run', finishCycle_next]
  · exact ⟨s, s', step_halted running, step_halted fun ok => running (same.symm.trans ok), h⟩

/-- Related states are related after a cycle with the same inputs. -/
theorem cycle (rel : CycleRelation R) (h : R s s') (keys : Word) (rnd : Byte) :
    ∃ t t', cycle keys rnd s = .next t ∧ cycle keys rnd s' = .next t' ∧ R t t' := by
  have same := rel.inputs_eq h
  obtain ⟨t, t', run, run', after⟩ := rel.step (rel.present (⟨keys, rnd⟩ :: s.inputs) h)
  refine ⟨_, _, cycle_of_step run, cycle_of_step (same ▸ run'), ?_⟩
  rw [same]
  exact rel.present _ after

end CycleRelation

/-! ### Instructions that neither write `st` nor touch the stack -/

/-- `s` with another sound timer and another stack. -/
def State.withStStk (s : State) (v : Byte) (stk : Vector Word 16) : State :=
  { s with st := v, STK := stk }

theorem dumpRegs_withStStk (s : State) (v : Byte) (stk : Vector Word 16) (rs : List Reg) :
    (s.withStStk v stk).dumpRegs rs = (s.dumpRegs rs).withStStk v stk := by
  rw [State.dumpRegs, State.dumpRegs]
  exact List.foldl_hom (State.withStStk · v stk) fun _ _ => rfl

theorem loadRegs_withStStk (s : State) (v : Byte) (stk : Vector Word 16) (rs : List Reg) :
    (s.withStStk v stk).loadRegs rs = (s.loadRegs rs).withStStk v stk := by
  rw [State.loadRegs, State.loadRegs]
  exact List.foldl_hom (State.withStStk · v stk) fun _ _ => rfl

/-- Instruction `i` carries `st` and the stack through `s` as they are, and keeps `sp`. -/
def PassesStStk (i : Instr) (s : State) : Prop :=
  ∃ t, exec i s = .next t ∧ t.sp = s.sp ∧
    ∀ v stk, exec i (s.withStStk v stk) = .next (t.withStStk v stk)

theorem ldVxK_passes (x : Reg) (s : State) : PassesStStk (.ldVxK x) s := by
  refine ⟨_, rfl, ?_, fun v stk => ?_⟩
  · split <;> rfl
  · rw [apply_ite (State.withStStk · v stk)]
    rfl

/-- Every instruction but `CALL`, `RET` and `LD ST, Vx` passes `st` and the stack through. -/
theorem exec_passes (i : Instr) (s : State) :
    (∃ nnn, i = .call nnn) ∨ i = .ret ∨ (∃ x, i = .ldStVx x) ∨ PassesStStk i s := by
  cases i with
  | call nnn => exact .inl ⟨nnn, rfl⟩
  | ret => exact .inr (.inl rfl)
  | ldStVx x => exact .inr (.inr (.inl ⟨x, rfl⟩))
  | ldMemVx x =>
    exact .inr (.inr (.inr ⟨_, rfl, dumpRegs_sp .., fun _ _ => congrArg _ (dumpRegs_withStStk ..)⟩))
  | ldVxMem x =>
    exact .inr (.inr (.inr ⟨_, rfl, loadRegs_sp .., fun _ _ => congrArg _ (loadRegs_withStStk ..)⟩))
  | ldVxK x => exact .inr (.inr (.inr (ldVxK_passes x s)))
  | cls | jp | seByte | sneByte | seReg | ldByte | addByte | ldReg | orReg | andReg | xorReg
  | addReg | subReg | shr | subnReg | shl | sneReg | ldI | jpV0 | rnd | drw | skp | sknp | ldVxDt
  | ldDtVx | addI | ldF | ldB => exact .inr (.inr (.inr ⟨_, rfl, rfl, fun _ _ => rfl⟩))

/-! ### The sound timer (R42, R166) -/

/-- Two states that differ at most in `st`. -/
def SameButSound (s s' : State) : Prop := ∃ v, s' = { s with st := v }

theorem sameButSound_exec {s s' : State} (i : Instr) (same : SameButSound s s') :
    ∃ t t', exec i s = .next t ∧ exec i s' = .next t' ∧ SameButSound t t' := by
  obtain ⟨v, rfl⟩ := same
  obtain ⟨nnn, rfl⟩ | rfl | ⟨x, rfl⟩ | ⟨t, -, -, passes⟩ := exec_passes i s
  · by_cases full : s.sp.val = 16
    · exact ⟨_, _, dif_pos full, dif_pos full, v, rfl⟩
    · exact ⟨_, _, dif_neg full, dif_neg full, v, rfl⟩
  · by_cases empty : s.sp.val = 0
    · exact ⟨_, _, dif_pos empty, dif_pos empty, v, rfl⟩
    · exact ⟨_, _, dif_neg empty, dif_neg empty, v, rfl⟩
  · exact ⟨_, _, rfl, rfl, _, rfl⟩
  · exact ⟨_, _, passes s.st s.STK, passes v s.STK, v, rfl⟩

theorem sameButSound_cycleRelation : CycleRelation SameButSound where
  fault_eq := by rintro _ _ ⟨v, rfl⟩; rfl
  fetchWord_eq := by rintro _ _ ⟨v, rfl⟩; rfl
  inputs_eq := by rintro _ _ ⟨v, rfl⟩; rfl
  present := by rintro _ _ _ ⟨v, rfl⟩; exact ⟨v, rfl⟩
  fetch := by rintro _ _ ⟨v, rfl⟩; exact ⟨v, rfl⟩
  exec := sameButSound_exec
  complete := by rintro _ _ ⟨v, rfl⟩; exact ⟨tick v, rfl⟩
  stop := by rintro _ _ _ ⟨v, rfl⟩; exact ⟨v, rfl⟩

/-- Settles O23: differing at most in `st` is kept by a cycle with the same inputs. -/
theorem soundTimerIsUnreadable : Obligations.SoundTimerIsUnreadable := by
  intro s v keys rnd
  obtain ⟨t, u, run, run', w, rfl⟩ := sameButSound_cycleRelation.cycle ⟨v, rfl⟩ keys rnd
  exact ⟨t, _, run, run', rfl⟩

/-! ### Stack entries at or above `sp` (R31) -/

/-- Two states that differ at most in stack entries at or above `sp`. -/
def SameButStale (s s' : State) : Prop :=
  ∃ stk, s' = { s with STK := stk } ∧ ∀ i : Fin 16, i.val < s.sp.val → stk[i] = s.STK[i]

/-- A call overwrites the lowest of the entries that may differ. -/
theorem sameButStale_execCall (nnn : Addr) {s s' : State} (same : SameButStale s s') :
    ∃ t t', execCall nnn s = .next t ∧ execCall nnn s' = .next t' ∧ SameButStale t t' := by
  obtain ⟨stk, rfl, agree⟩ := same
  by_cases full : s.sp.val = 16
  · exact ⟨_, _, dif_pos full, dif_pos full, stk, rfl, agree⟩
  · refine ⟨_, _, dif_neg full, dif_neg full, _, rfl, fun i lt => ?_⟩
    have lt' : i.val < s.sp.val + 1 := lt
    simp only [setPc_STK, pushPc_STK, Fin.getElem_fin, Vector.getElem_set]
    split
    · rfl
    · exact agree i (by omega)

/-- A return reads an entry below `sp`, where the two stacks agree. -/
theorem sameButStale_execRet {s s' : State} (same : SameButStale s s') :
    ∃ t t', execRet s = .next t ∧ execRet s' = .next t' ∧ SameButStale t t' := by
  obtain ⟨stk, rfl, agree⟩ := same
  by_cases empty : s.sp.val = 0
  · exact ⟨_, _, dif_pos empty, dif_pos empty, stk, rfl, agree⟩
  · have isOpen : 0 < s.sp.val := by omega
    have top : stk[s.sp.val - 1] = s.STK[s.sp.val - 1] :=
      agree ⟨s.sp.val - 1, by omega⟩ (Nat.sub_lt isOpen Nat.one_pos)
    have popped : State.popPc { s with STK := stk } isOpen =
        { s.popPc isOpen with STK := stk } := by
      simp only [State.popPc, top]
    refine ⟨_, _, dif_neg empty, (dif_neg empty).trans (congrArg _ popped), stk, rfl,
      fun i lt => ?_⟩
    have lt' : i.val < s.sp.val - 1 := lt
    exact agree i (by omega)

theorem sameButStale_exec {s s' : State} (i : Instr) (same : SameButStale s s') :
    ∃ t t', exec i s = .next t ∧ exec i s' = .next t' ∧ SameButStale t t' := by
  obtain ⟨nnn, rfl⟩ | rfl | ⟨x, rfl⟩ | ⟨t, -, sp, passes⟩ := exec_passes i s
  · exact sameButStale_execCall nnn same
  · exact sameButStale_execRet same
  · obtain ⟨stk, rfl, agree⟩ := same
    exact ⟨_, _, rfl, rfl, stk, rfl, agree⟩
  · obtain ⟨stk, rfl, agree⟩ := same
    exact ⟨_, _, passes s.st s.STK, passes s.st stk, stk, rfl, fun i lt => agree i (sp ▸ lt)⟩

theorem sameButStale_cycleRelation : CycleRelation SameButStale where
  fault_eq := by rintro _ _ ⟨stk, rfl, -⟩; rfl
  fetchWord_eq := by rintro _ _ ⟨stk, rfl, -⟩; rfl
  inputs_eq := by rintro _ _ ⟨stk, rfl, -⟩; rfl
  present := by rintro _ _ _ ⟨stk, rfl, agree⟩; exact ⟨stk, rfl, agree⟩
  fetch := by rintro _ _ ⟨stk, rfl, agree⟩; exact ⟨stk, rfl, agree⟩
  exec := sameButStale_exec
  complete := by rintro _ _ ⟨stk, rfl, agree⟩; exact ⟨stk, rfl, agree⟩
  stop := by rintro _ _ _ ⟨stk, rfl, agree⟩; exact ⟨stk, rfl, agree⟩

/-- Settles O24: differing at most in entries at or above `sp` is kept by a cycle with the same
inputs. -/
theorem staleStackEntriesAreUnread : Obligations.StaleStackEntriesAreUnread := by
  intro s stk keys rnd agree
  obtain ⟨t, u, run, run', stk', rfl, agree'⟩ :=
    sameButStale_cycleRelation.cycle ⟨stk, rfl, agree⟩ keys rnd
  exact ⟨t, _, run, run', rfl, agree'⟩

end Sys2Proof.Machine
end

section
/-! Settlements about `Reset(IMAGE)`: the reset values, and what consecutive writes leave in memory
(R41, R56, R190, R191). -/

namespace Sys2Proof.Machine

/-! ### Registers, stack and framebuffer after a reset (R41) -/

theorem reset_reg (r : Reg) : State.reset.reg r = 0 := Vector.getElem_replicate r.isLt

theorem reset_STK (i : Fin 16) : State.reset.STK[i] = 0 := Vector.getElem_replicate i.isLt

theorem cell_reset (yy xx : Nat) : Framebuffer.cell State.reset.FB yy xx = false := by
  unfold Framebuffer.cell
  split
  · simp [State.reset]
  · rfl

/-! ### Memory after a reset (R56, R190) -/

/-- Outside the glyph area an unlisted address reads zero (R56). -/
theorem Memory.unlisted_outside {a : Nat} (outside : a < 0x050 ∨ 0x0A0 ≤ a) : unlisted a = 0 := by
  rw [unlisted, if_neg]
  simp only [Config.fontBase]
  omega

/-- Consecutive writes leave every other address as it was. -/
theorem Memory.read_writeBytes_other {b : Nat} : ∀ {vs : List Byte} {m : Memory} {a : Nat},
    b < a ∨ a + vs.length ≤ b → read (writeBytes m a vs) b = read m b
  | [], _, _, _ => rfl
  | v :: vs, m, a, outside => by
    rw [List.length_cons] at outside
    calc read (writeBytes (write m a v) (a + 1) vs) b
        = read (write m a v) b := read_writeBytes_other (by omega)
      _ = read m b := read_write_other v (by omega)

/-- Consecutive writes leave the bytes written at their addresses. -/
theorem Memory.read_writeBytes_same : ∀ {vs : List Byte} {m : Memory} {a : Nat}, wf m = true →
    a + vs.length ≤ 4096 → ∀ i (h : i < vs.length), read (writeBytes m a vs) (a + i) = vs[i]
  | v :: vs, m, a, canonical, _, 0, _ => by
    calc read (writeBytes (write m a v) (a + 1) vs) a
        = read (write m a v) a := read_writeBytes_other (by omega)
      _ = v := read_write_same a v canonical
  | v :: vs, m, a, canonical, fits, i + 1, h => by
    rw [List.length_cons] at fits h
    have later := read_writeBytes_same (vs := vs) (a := a + 1)
      (wf_write (a := a) v canonical (by omega)) (by omega) i (by omega)
    rwa [Nat.add_right_comm] at later

section
variable (font : Vector Byte 80) (image : List Byte)

theorem font_wf : Memory.wf (Memory.writeBytes [] 0x050 font.toList) = true :=
  Memory.wf_writeBytes rfl (by simp)

theorem resetMemory_wf (fits : image.length ≤ 3584) : Memory.wf (resetMemory font image) = true :=
  Memory.wf_writeBytes (font_wf font) (by simp only [Config.progBase]; omega)

theorem read_resetMemory_font (i : Fin 80) :
    Memory.read (resetMemory font image) (0x050 + i.val) = font[i] := by
  have stored := Memory.read_writeBytes_same (vs := font.toList) (m := []) (a := 0x050) rfl
    (by simp) i.val (by simp)
  calc Memory.read (resetMemory font image) (0x050 + i.val)
      = Memory.read (Memory.writeBytes [] 0x050 font.toList) (0x050 + i.val) :=
        Memory.read_writeBytes_other (by simp only [Config.progBase]; omega)
    _ = font[i] := by simpa using stored

theorem read_resetMemory_image (fits : image.length ≤ 3584) (i : Nat) (h : i < image.length) :
    Memory.read (resetMemory font image) (0x200 + i) = image[i] :=
  Memory.read_writeBytes_same (font_wf font) (by simp only [Config.progBase]; omega) i h

/-- Every address that neither the glyph table nor the image covers reads zero. -/
theorem read_resetMemory_zero {a : Nat}
    (outside : a < 0x050 ∨ (0x0A0 ≤ a ∧ a < 0x200) ∨ 0x200 + image.length ≤ a) :
    Memory.read (resetMemory font image) a = 0 := by
  have glyphs : a < 0x050 ∨ 0x050 + font.toList.length ≤ a := by simp; omega
  calc Memory.read (resetMemory font image) a
      = Memory.read (Memory.writeBytes [] 0x050 font.toList) a :=
        Memory.read_writeBytes_other (by simp only [Config.progBase]; omega)
    _ = Memory.unlisted a := Memory.read_writeBytes_other glyphs
    _ = 0 := Memory.unlisted_outside (by omega)

end

/-! ### Acceptance of an image (R191) -/

theorem resetWith_long (font : Vector Byte 80) {image : List Byte} (long : 3584 < image.length) :
    resetWith font image = .error .imageTooLarge := by
  have refused : imageWf image = false := decide_eq_false (by simp only [Config.imageMax]; omega)
  rw [resetWith, refused]
  rfl

theorem resetWith_ok (font : Vector Byte 80) {image : List Byte} (fits : image.length ≤ 3584) :
    resetWith font image = .ok { State.reset with MEM := resetMemory font image } := by
  have accepted : imageWf image = true := decide_eq_true fits
  rw [resetWith, if_pos accepted]

/-! ### Settlements -/

/-- Settles O56: the two sizes of an image, and the three areas of memory. -/
theorem resetLoadsFontAndImage : Obligations.ResetLoadsFontAndImage := by
  intro font image
  refine ⟨resetWith_long font, fun fits => ⟨_, resetWith_ok font fits, reset_reg, rfl, rfl, rfl,
    reset_STK, rfl, rfl, rfl, rfl, cell_reset, fun i => ?_, fun i h => ?_, fun a lt outside => ?_⟩⟩
  · rw [State.memRead, Nat.mod_eq_of_lt (by simp only [Config.memSize]; omega)]
    exact read_resetMemory_font font image i
  · rw [State.memRead, Nat.mod_eq_of_lt (by simp only [Config.memSize]; omega)]
    exact read_resetMemory_image font image fits i h
  · rw [State.memRead, Nat.mod_eq_of_lt lt]
    exact read_resetMemory_zero font image outside

/-- The reset state with canonical memory meets the invariant. -/
theorem reset_inv {m : Memory} (canonical : Memory.wf m = true) :
    State.Inv { State.reset with MEM := m } := by
  have pc : State.reset.pc.toNat < 4096 := by decide
  refine ⟨pc, fun i => ?_, canonical⟩
  rw [reset_STK]
  decide

/-- Settles O20: a reset is the reset state with another canonical memory. -/
theorem resetMeetsTheInvariant : Obligations.ResetMeetsTheInvariant := by
  refine ⟨reset_inv rfl, fun font image s accepted => ?_⟩
  by_cases fits : image.length ≤ 3584
  · rw [resetWith_ok font fits] at accepted
    cases accepted
    exact reset_inv (resetMemory_wf font image fits)
  · rw [resetWith_long font (by omega)] at accepted
    cases accepted

/-- Settles O55: with an empty image nothing is listed, so only the glyph area reads other than zero. -/
theorem resetValues : Obligations.ResetValues := by
  refine ⟨reset_reg, rfl, rfl, rfl, reset_STK, rfl, rfl, rfl, rfl, cell_reset,
    fun a lt outside => ?_⟩
  rw [State.memRead, Nat.mod_eq_of_lt lt]
  exact Memory.unlisted_outside outside

end Sys2Proof.Machine
end

section
/-! Settlements about main memory as fetch sees it: big-endian words with wrap, a placed word, and a
store over the word that comes next (R50 to R54, R63). -/

namespace Sys2Proof.Machine

/-! ### Fetch as two byte reads (R50, R52, R54) -/

/-- Addresses that agree modulo 4096 name the same byte (R50). -/
theorem memRead_congr (s : State) {a b : Nat} (same : a % 4096 = b % 4096) :
    s.memRead a = s.memRead b :=
  congrArg (Memory.read s.MEM) same

/-- Two bytes side by side are a number in base 256. -/
theorem toNat_byte_append (hi lo : Byte) : (hi ++ lo).toNat = hi.toNat * 256 + lo.toNat := by
  rw [BitVec.toNat_append, ← Nat.shiftLeft_add_eq_or_of_lt lo.isLt, Nat.shiftLeft_eq]

theorem fetchWord_toNat (s : State) :
    s.fetchWord.toNat =
      (s.memRead s.pc.toNat).toNat * 256 + (s.memRead (s.pc.toNat + 1)).toNat :=
  toNat_byte_append _ _

/-- Settles O9: at the top of memory the low byte is read from address 0x1000, which is 0x000. -/
theorem fetchIsBigEndianAndWraps : Obligations.FetchIsBigEndianAndWraps := by
  intro s
  refine ⟨fetchWord_toNat s, fun a => memRead_congr s (Nat.mod_mod a 4096).symm, fun top => ?_⟩
  have wraps : s.memRead (0xFFF + 1) = s.memRead 0x000 := memRead_congr s rfl
  rw [fetchWord_toNat, top, ← wraps]
  rfl

/-! ### A placed word (R52, log 7) -/

theorem withFetchWord_eq_placeWord (s : State) (w : Word) :
    s.withFetchWord 16 w.toNat = s.placeWord w := by
  rw [State.withFetchWord, Nat.mod_eq_of_lt w.isLt, BitVec.ofNat_toNat, BitVec.setWidth_eq]

theorem highByte_append_lowByte (w : Word) : highByte w ++ lowByte w = w :=
  (BitVec.extractLsb'_append_extractLsb'_eq_extractLsb' rfl).trans BitVec.extractLsb'_eq_self

section
variable {s : State} (w : Word)

/-- The low byte, which is stored last, lies at another address than the high byte. -/
theorem placeWord_memRead_high (wf : Memory.wf s.MEM = true) :
    (s.placeWord w).memRead s.pc.toNat = highByte w :=
  (memRead_memWrite_other _ (by omega)).trans (memRead_memWrite_same _ wf rfl)

theorem placeWord_memRead_low (wf : Memory.wf s.MEM = true) :
    (s.placeWord w).memRead (s.pc.toNat + 1) = lowByte w :=
  memRead_memWrite_same _ (memWrite_wf _ _ wf) rfl

theorem placeWord_memRead_other {a : Nat} (notHigh : a % 4096 ≠ s.pc.toNat % 4096)
    (notLow : a % 4096 ≠ (s.pc.toNat + 1) % 4096) : (s.placeWord w).memRead a = s.memRead a :=
  (memRead_memWrite_other _ notLow).trans (memRead_memWrite_other _ notHigh)

theorem placeWord_fetchWord (wf : Memory.wf s.MEM = true) : (s.placeWord w).fetchWord = w :=
  calc (s.placeWord w).fetchWord
    _ = (s.placeWord w).memRead s.pc.toNat ++ (s.placeWord w).memRead (s.pc.toNat + 1) := rfl
    _ = highByte w ++ lowByte w := by
      rw [placeWord_memRead_high w wf, placeWord_memRead_low w wf]
    _ = w := highByte_append_lowByte w

theorem placeWord_inv (inv : s.Inv) : (s.placeWord w).Inv := by
  obtain ⟨pc, stack, wf⟩ := inv
  exact ⟨pc, stack, memWrite_wf _ _ (memWrite_wf _ _ wf)⟩

end

/-- Settles O10: placing a word is two writes of bytes, at the two addresses that fetch reads. -/
theorem placedWordIsFetched : Obligations.PlacedWordIsFetched := by
  intro s w inv
  have ⟨pc, _, wf⟩ := inv
  rw [withFetchWord_eq_placeWord]
  refine ⟨placeWord_fetchWord w wf, placeWord_inv w inv, fun a notHigh notLow => ?_⟩
  have pc_mod : s.pc.toNat % 4096 = s.pc.toNat := Nat.mod_eq_of_lt pc
  exact placeWord_memRead_other w (pc_mod.symm ▸ notHigh) notLow

/-! ### A store over the next word (R63, R199) -/

/-- The cycle of `LD [I], Vx`: fetch and advance, the dump, the tick. -/
theorem step_ldMemVx {s : State} {x : Reg} (about : s.About (.ldMemVx x)) :
    step s = .next (s.beginCycle.dumpRegs (regsUpTo x)).completeCycle := by
  obtain ⟨running, word⟩ := about
  have ends : s.endCycle (s.beginCycle.dumpRegs (regsUpTo x)) =
      (s.beginCycle.dumpRegs (regsUpTo x)).completeCycle :=
    endCycle_running s ((dumpRegs_fault ..).trans running)
  rw [step_instr running word, ← ends]
  rfl

/-- After the cycle of `LD [I], Vx` the byte of each dumped register reads as that register. -/
theorem step_ldMemVx_memRead {s t : State} {x i : Reg} {a : Nat} (wf : Memory.wf s.MEM = true)
    (about : s.About (.ldMemVx x)) (h : step s = .next t) (dumped : i ≤ x)
    (here : (s.I.toNat + i.val) % 4096 = a % 4096) : t.memRead a = s.reg i := by
  rw [step_ldMemVx about] at h
  cases h
  exact dumpRegs_memRead_stored (s := s.beginCycle) wf (mem_regsUpTo.mpr dumped) here.symm

/-- Settles O46: the next fetch reads the two bytes from the memory that the dump left. -/
theorem storeIsSeenByTheNextFetch : Obligations.StoreIsSeenByTheNextFetch := by
  intro x s t inv about h i j dumped_i dumped_j at_high at_low
  have ⟨_, _, wf⟩ := inv
  have high : t.memRead t.pc.toNat = s.reg i :=
    step_ldMemVx_memRead wf about h dumped_i (by omega)
  have low : t.memRead (t.pc.toNat + 1) = s.reg j :=
    step_ldMemVx_memRead wf about h dumped_j at_low
  rw [fetchWord_toNat, high, low]

end Sys2Proof.Machine
end

section
/-! Settlements about the opcode map as a decoder: no word belongs to two rows, and the rows give
each word what the selector algorithm gives it (R74 to R77, R83). -/

namespace Sys2Proof

/-! ### Disjoint rows (R74) -/

/-- The rows want different values of a bit that both of them read. -/
def OpcodeRow.Clashes (r q : OpcodeRow) : Prop := r.fixed &&& q.mask ≠ q.fixed &&& r.mask

theorem OpcodeRow.hit_iff {r : OpcodeRow} {w : Word} : r.hit w = true ↔ w &&& r.mask = r.fixed :=
  beq_iff_eq

/-- Under both masks at once, a word of both rows would show the fixed bits of each. -/
theorem OpcodeRow.Clashes.not_hit_both {r q : OpcodeRow} (clash : r.Clashes q) (w : Word) :
    ¬ (r.hit w = true ∧ q.hit w = true) := by
  rintro ⟨hr, hq⟩
  rw [OpcodeRow.hit_iff] at hr hq
  apply clash
  rw [← hr, ← hq, BitVec.and_assoc, BitVec.and_assoc, BitVec.and_comm r.mask]

theorem opcodeTable_pairwise_clashes : opcodeTable.Pairwise OpcodeRow.Clashes := by
  unfold OpcodeRow.Clashes
  decide

/-- Settles O5: any two rows clash in a fixed bit. -/
theorem opcodeRowsAreDisjoint : Obligations.OpcodeRowsAreDisjoint :=
  ⟨rfl, opcodeTable_pairwise_clashes.imp OpcodeRow.Clashes.not_hit_both⟩

/-- The rows come in the four groups of the table. -/
theorem forall_row {P : OpcodeRow → Prop} (low : ∀ r ∈ opcodeTableLow, P r)
    (alu : ∀ r ∈ opcodeTableAlu, P r) (mid : ∀ r ∈ opcodeTableMid, P r)
    (high : ∀ r ∈ opcodeTableHigh, P r) : ∀ r ∈ opcodeTable, P r := by
  simp only [opcodeTable, List.forall_mem_append]
  exact ⟨⟨⟨low, alu⟩, mid⟩, high⟩

/-! ### Decoding by the row that a word belongs to (R75) -/

section
variable {r q : OpcodeRow} {w : Word}

theorem row_eq_of_hit_both (hr : r ∈ opcodeTable) (hq : q ∈ opcodeTable) (hit_r : r.hit w = true)
    (hit_q : q.hit w = true) : r = q := by
  have symm : Std.Symm OpcodeRow.Clashes := ⟨fun _ _ => Ne.symm⟩
  by_contra ne
  exact (opcodeTable_pairwise_clashes.forall hr hq ne).not_hit_both w ⟨hit_r, hit_q⟩

/-- The order of the rows does not matter: the row that is found is the only one. -/
theorem decode_of_hit (hr : r ∈ opcodeTable) (hit : r.hit w = true) :
    decode w = .instr (r.build w) := by
  unfold decode
  split
  next q found =>
    have hit_q : q.hit w = true := List.find?_some (p := fun r : OpcodeRow => r.hit w) found
    rw [row_eq_of_hit_both hr (List.mem_of_find?_eq_some found) hit hit_q]
  next missed => exact absurd hit (List.find?_eq_none.mp missed r hr)

theorem decode_of_no_hit (no_hit : ∀ r ∈ opcodeTable, ¬ r.hit w = true) :
    decode w = .undefinedWord := by
  rw [decode, List.find?_eq_none.mpr no_hit]

end

/-! ### What the three masks compare (R74, R75) -/

theorem bitVec_append_inj {m n : Nat} {a b : BitVec m} {c d : BitVec n} :
    a ++ c = b ++ d ↔ a = b ∧ c = d := by
  refine ⟨fun h => ⟨?_, ?_⟩, fun ⟨hab, hcd⟩ => hab ▸ hcd ▸ rfl⟩
  · rw [← BitVec.extractLsb'_append_eq_left (a := a) (b := c), h,
      BitVec.extractLsb'_append_eq_left]
  · rw [← BitVec.extractLsb'_append_eq_right (a := a) (b := c), h,
      BitVec.extractLsb'_append_eq_right]

section
variable {w fixed : Word}

theorem and_F000_eq_iff (inside : fixed &&& 0xF000#16 = fixed) :
    w &&& 0xF000#16 = fixed ↔ selField w = fixed.extractLsb' 12 4 := by
  have eq_fields : fixed = selField fixed ++ 0#12 := inside.symm.trans (and_F000 fixed)
  calc w &&& 0xF000#16 = fixed
    _ ↔ selField w ++ 0#12 = selField fixed ++ 0#12 := by rw [← eq_fields, ← and_F000]; rfl
    _ ↔ selField w = selField fixed := BitVec.append_left_inj _

theorem and_F00F_eq_iff (inside : fixed &&& 0xF00F#16 = fixed) :
    w &&& 0xF00F#16 = fixed ↔
      selField w = fixed.extractLsb' 12 4 ∧ subField w = fixed.extractLsb' 0 4 := by
  have eq_fields : fixed = selField fixed ++ 0#8 ++ subField fixed :=
    inside.symm.trans (and_F00F fixed)
  calc w &&& 0xF00F#16 = fixed
    _ ↔ selField w ++ 0#8 ++ subField w = selField fixed ++ 0#8 ++ subField fixed := by
      rw [← eq_fields, ← and_F00F]; rfl
    _ ↔ selField w = selField fixed ∧ subField w = subField fixed := by
      rw [bitVec_append_inj, BitVec.append_left_inj]

theorem and_F0FF_eq_iff (inside : fixed &&& 0xF0FF#16 = fixed) :
    w &&& 0xF0FF#16 = fixed ↔
      selField w = fixed.extractLsb' 12 4 ∧ kkField w = fixed.extractLsb' 0 8 := by
  have eq_fields : fixed = selField fixed ++ 0#4 ++ kkField fixed :=
    inside.symm.trans (and_F0FF fixed)
  calc w &&& 0xF0FF#16 = fixed
    _ ↔ selField w ++ 0#4 ++ kkField w = selField fixed ++ 0#4 ++ kkField fixed := by
      rw [← eq_fields, ← and_F0FF]; rfl
    _ ↔ selField w = selField fixed ∧ kkField w = kkField fixed := by
      rw [bitVec_append_inj, BitVec.append_left_inj]

end

/-! ### The table and the selectors (R75, R77) -/

/-- R77 in the fields of the word: its secondary selector is none of those that its selector has. -/
def SelectsNothing (w : Word) : Prop :=
  (selField w = 0x0 ∧ subField w ∉ [0x0, 0xE]) ∨
  (selField w = 0x8 ∧ subField w ∉ [0x0, 0x1, 0x2, 0x3, 0x4, 0x5, 0x6, 0x7, 0xE]) ∨
  (selField w = 0xE ∧ subField w ∉ [0x1, 0xE]) ∨
  (selField w = 0xF ∧ kkField w ∉ [0x07, 0x0A, 0x15, 0x18, 0x1E, 0x29, 0x33, 0x55, 0x65])

/-- Row by row: under the selectors that the row fixes, the algorithm reads the row's operands. -/
theorem decodeBySelectors_of_hit {w : Word} :
    ∀ r ∈ opcodeTable, r.hit w = true → decodeBySelectors w = .instr (r.build w) := by
  refine forall_row ?low ?alu ?mid ?high
  case low =>
    simp +contextual [opcodeTableLow, OpcodeRow.hit, and_F000_eq_iff, and_F00F_eq_iff,
      decodeBySelectors]
  case alu => simp +contextual [opcodeTableAlu, OpcodeRow.hit, and_F00F_eq_iff, decodeBySelectors]
  case mid =>
    simp +contextual [opcodeTableMid, OpcodeRow.hit, and_F000_eq_iff, and_F00F_eq_iff,
      decodeBySelectors]
  case high => simp +contextual [opcodeTableHigh, OpcodeRow.hit, and_F0FF_eq_iff, decodeBySelectors]

/-- Each branch of the algorithm that answers an instruction has selectors outside R77. -/
theorem decodeBySelectors_of_selectsNothing {w : Word} (nothing : SelectsNothing w) :
    decodeBySelectors w = .undefinedWord := by
  fun_cases decodeBySelectors w <;> simp_all [SelectsNothing]

/-- The selectors that decode without a secondary selector leave four over. -/
theorem sel_with_secondary :
    ∀ sel : BitVec 4, sel ∉ [0x1, 0x2, 0x3, 0x4, 0x5, 0x6, 0x7, 0x9, 0xA, 0xB, 0xC, 0xD] →
      sel = 0x0 ∨ sel = 0x8 ∨ sel = 0xE ∨ sel = 0xF := by
  decide

theorem selectsNothing_of_no_hit {w : Word} (no_hit : ∀ r ∈ opcodeTable, ¬ r.hit w = true) :
    SelectsNothing w := by
  simp [opcodeTable, opcodeTableLow, opcodeTableAlu, opcodeTableMid, opcodeTableHigh,
    OpcodeRow.hit, and_F000_eq_iff, and_F00F_eq_iff, and_F0FF_eq_iff] at no_hit
  have sel := sel_with_secondary (selField w) (by simp [no_hit])
  rcases sel with sel | sel | sel | sel <;> simp [SelectsNothing, sel, no_hit]

/-- Settles O4: a word of a row goes the way of that row, and a word of no row selects nothing. -/
theorem tableAgreesWithSelectors : Obligations.TableAgreesWithSelectors := by
  intro w
  by_cases belongs : ∃ r ∈ opcodeTable, r.hit w = true
  · obtain ⟨r, hr, hit⟩ := belongs
    rw [decode_of_hit hr hit, decodeBySelectors_of_hit r hr hit]
  · have no_hit : ∀ r ∈ opcodeTable, ¬ r.hit w = true := fun r hr hit => belongs ⟨r, hr, hit⟩
    rw [decode_of_no_hit no_hit,
      decodeBySelectors_of_selectsNothing (selectsNothing_of_no_hit no_hit)]

theorem decode_eq_undefinedWord_iff {w : Word} :
    decode w = .undefinedWord ↔ SelectsNothing w := by
  constructor
  · intro undefined
    apply selectsNothing_of_no_hit
    intro r hr hit
    cases undefined.symm.trans (decode_of_hit hr hit)
  · intro nothing
    rw [tableAgreesWithSelectors, decodeBySelectors_of_selectsNothing nothing]

theorem subField_toNat (w : Word) : (subField w).toNat = w.toNat % 16 :=
  toNat_extractLsb'_zero w 4

/-- The low nibbles that select nothing under selector 8, listed instead of excluded. -/
theorem alu_low_not_mem_iff : ∀ low < 16,
    low ∉ [0x0, 0x1, 0x2, 0x3, 0x4, 0x5, 0x6, 0x7, 0xE] ↔
      low ∈ [0x8, 0x9, 0xA, 0xB, 0xC, 0xD, 0xF] := by
  decide

/-- Settles O6: R77 in the fields of the word is R77 in the digits of its value. -/
theorem undefinedWordsExactly : Obligations.UndefinedWordsExactly := by
  intro w
  rw [decode_eq_undefinedWord_iff, SelectsNothing,
    ← alu_low_not_mem_iff (w.toNat % 16) (Nat.mod_lt _ (by decide))]
  simp [← BitVec.toNat_inj, selField_toNat, subField_toNat, kkField_toNat]

/-- Settles O3: a canonical word has the selectors and operands it was built from. -/
theorem decodeOfEncode : Obligations.DecodeOfEncode := by
  intro i
  rw [tableAgreesWithSelectors]
  cases i with
  | cls | ret => decide
  | _ => simp [encode, decodeBySelectors]

/-- Settles O2, by evaluation. -/
theorem sampleWordsDecode : Obligations.SampleWordsDecode := by
  unfold Obligations.SampleWordsDecode
  decide

end Sys2Proof
end

section
/-! Settlement about aliases: encoding what a row decoded changes the ignored bits of the row alone
(R76, R83). -/

namespace Sys2Proof

open BitVec (allOnes)

/-! ### A word from its fields -/

section
variable {w : Word} {sel low : BitVec 4} {kk : Byte}

theorem formatA_of_fields (hsel : selField w = sel) : formatA sel (nnnField w) = w := by
  subst hsel
  exact (BitVec.extractLsb'_append_extractLsb'_eq_extractLsb' rfl).trans BitVec.extractLsb'_eq_self

theorem formatK_of_fields (hsel : selField w = sel) (hkk : kkField w = kk) :
    formatK sel (xField w) kk = w := by
  subst hsel hkk
  have high : selField w ++ BitVec.ofFin (w := 4) (xField w) = highByte w :=
    BitVec.extractLsb'_append_extractLsb'_eq_extractLsb' rfl
  rw [formatK, high]
  exact Machine.highByte_append_lowByte w

theorem formatR_of_fields (hsel : selField w = sel) (hlow : subField w = low) :
    formatR sel (xField w) (yField w) low = w := by
  subst hsel hlow
  exact (nibbles w).symm

end

/-- The row count of a sprite is the low nibble. -/
theorem ofFin_nField (w : Word) : BitVec.ofFin (w := 4) (nField w) = subField w := rfl

/-! ### A word without the ignored bits of a row (R76) -/

/-- A mask made of four nibbles acts on each nibble. -/
theorem and_append_nibbles (w : Word) (a b c d : BitVec 4) :
    w &&& (a ++ b ++ c ++ d) =
      formatR (selField w &&& a) (BitVec.ofFin (w := 4) (xField w) &&& b).toFin
        (BitVec.ofFin (w := 4) (yField w) &&& c).toFin (subField w &&& d) := by
  conv_lhs => rw [nibbles w]
  exact BitVec.and_append.trans (bitVec_append_inj.mpr
    ⟨BitVec.and_append.trans (bitVec_append_inj.mpr ⟨BitVec.and_append, rfl⟩), rfl⟩)

/-- Without `op[3:0]`, which `SE Vx, Vy` and `SNE Vx, Vy` ignore. -/
theorem and_FFF0 (w : Word) :
    w &&& 0xFFF0#16 = formatR (selField w) (xField w) (yField w) 0#4 := by
  refine (and_append_nibbles w (allOnes 4) (allOnes 4) (allOnes 4) 0#4).trans ?_
  simp only [BitVec.and_allOnes, BitVec.and_zero]

/-- Without `op[7:4]`, which the two shifts and the two key skips ignore. -/
theorem and_FF0F (w : Word) :
    w &&& 0xFF0F#16 = formatR (selField w) (xField w) 0 (subField w) := by
  refine (and_append_nibbles w (allOnes 4) (allOnes 4) 0#4 (allOnes 4)).trans ?_
  simp only [BitVec.and_allOnes, BitVec.and_zero]
  rfl

/-- Without `op[11:4]`, which `CLS` and `RET` ignore. -/
theorem and_F00F_of_sel_zero {w : Word} (sel : selField w = 0#4) :
    w &&& 0xF00F#16 = 0#12 ++ subField w := by
  rw [show w &&& 0xF00F#16 = _ from and_F00F w, sel]
  rfl

/-- The canonical low byte of `SKP` from its row's fixed and canonical bits. -/
theorem skp_canonical : ∀ x : Reg,
    formatR 0xE#4 x 0 0xE#4 ||| 0x0090#16 = formatK 0xE#4 x 0x9E#8 := by decide

/-- The canonical low byte of `SKNP` from its row's fixed and canonical bits. -/
theorem sknp_canonical : ∀ x : Reg,
    formatR 0xE#4 x 0 0x1#4 ||| 0x00A0#16 = formatK 0xE#4 x 0xA1#8 := by decide

/-- Row by row: a row that ignores nothing gives the word back from its fields; the others put their
canonical bits in place of the nibbles they ignore. -/
theorem encode_build_of_hit {w : Word} : ∀ r ∈ opcodeTable, r.hit w = true →
    encode (r.build w) = (w &&& ~~~r.ignored) ||| (r.canonical &&& r.ignored) := by
  have and_FFFF : w &&& 0xFFFF#16 = w := BitVec.and_allOnes
  refine forall_row ?low ?alu ?mid ?high
  case low =>
    simp +contextual [opcodeTableLow, OpcodeRow.hit, and_F000_eq_iff, and_F00F_eq_iff, encode,
      formatA_of_fields, formatK_of_fields, and_FFFF, and_FFF0, and_F00F_of_sel_zero]
  case alu =>
    simp +contextual [opcodeTableAlu, OpcodeRow.hit, and_F00F_eq_iff, encode, formatR_of_fields,
      and_FFFF, and_FF0F]
  case mid =>
    simp +contextual [opcodeTableMid, OpcodeRow.hit, and_F000_eq_iff, and_F00F_eq_iff, encode,
      formatA_of_fields, formatK_of_fields, formatR_of_fields, ofFin_nField, and_FFFF, and_FFF0,
      and_FF0F, skp_canonical, sknp_canonical]
  case high =>
    simp +contextual [opcodeTableHigh, OpcodeRow.hit, and_F0FF_eq_iff, encode, formatK_of_fields,
      and_FFFF]

/-- Settles O7: the instruction decoded is the one that the word's row builds. -/
theorem aliasDiffersInIgnoredBitsOnly : Obligations.AliasDiffersInIgnoredBitsOnly := by
  intro w r hr i hit decoded
  cases decoded.symm.trans (decode_of_hit hr hit)
  exact encode_build_of_hit r hr hit

end Sys2Proof
end

section
/-! Settlements about the frame of a cycle: the three kinds of cycle, the tick, and straight-line
execution (R90 to R100). -/

namespace Sys2Proof.Machine

/-! ### Presented inputs (R34) -/

/-- `s` with other inputs presented. -/
def State.withInputs (s : State) (l : List Inputs) : State := { s with inputs := l }

theorem cycle_of_step_withInputs {s t : State} {keys : Word} {rnd : Byte}
    (h : step (s.withInputs (⟨keys, rnd⟩ :: s.inputs)) = .next t) :
    cycle keys rnd s = .next (t.withInputs s.inputs) := cycle_of_step h

/-! ### A halted core (R97) -/

theorem cycle_halted {s : State} (halted : s.Halted) (keys : Word) (rnd : Byte) :
    cycle keys rnd s = .next s := by
  rw [cycle_of_step_withInputs (step_halted (s := s.withInputs _) halted)]
  rfl

/-- Settles O12: presenting inputs does not wake a halted core, and `cycle` takes them back. -/
theorem haltedCycleIsIdentity : Obligations.HaltedCycleIsIdentity :=
  fun _ halted => ⟨step_halted halted, cycle_halted halted⟩

/-! ### An undefined word (R95) -/

theorem cycle_undefinedWord {s : State} (running : s.Running)
    (word : decode s.fetchWord = .undefinedWord) (keys : Word) (rnd : Byte) :
    cycle keys rnd s = .next (s.beginCycle.completeCycle.withInputs s.inputs) := by
  rw [cycle_of_step_withInputs (step_undefinedWord (s := s.withInputs _) running word)]
  rfl

/-- Settles O11: fetch, advance and tick are all that such a cycle does. -/
theorem undefinedWordIsNoOp : Obligations.UndefinedWordIsNoOp := by
  intro s keys rnd running word
  exact ⟨_, cycle_undefinedWord running word keys rnd, rfl, toPc_toNat _, tick_toNat _,
    tick_toNat _, fun _ => rfl, rfl, rfl, rfl, rfl, fun _ => rfl, running⟩

/-! ### A decoded instruction (R90) -/

theorem step_of_exec {s u : State} {i : Instr} (about : s.About i)
    (run : exec i s.beginCycle = .next u) : step s = .next (s.endCycle u) := by
  rw [step_instr about.1 about.2, run, finishCycle_next]

theorem step_of_exec_running {s u : State} {i : Instr} (about : s.About i)
    (run : exec i s.beginCycle = .next u) (ok : u.Running) : step s = .next u.completeCycle :=
  endCycle_running s ok ▸ step_of_exec about run

theorem beginCycle_eq_fetched (s : State) : s.beginCycle = s.fetched := rfl

theorem completeCycle_eq_ticked (s : State) : s.completeCycle = s.ticked := by
  have tick_eq (t : Byte) : tick t = BitVec.ofNat 8 (t.toNat - 1) := by
    rw [← tick_toNat, BitVec.ofNat_toNat, BitVec.setWidth_eq]
  rw [State.completeCycle, tick_eq, tick_eq]

/-- Settles O8: the model's operations at the two ends of a cycle are those the statement writes
out. -/
theorem stepRunsTheDecodedInstruction : Obligations.StepRunsTheDecodedInstruction := by
  intro s
  refine ⟨step_halted, fun running word => ?_,
    fun i t about run => ⟨fun ok => ?_, fun halted => ?_⟩⟩
  · rw [step_undefinedWord running word, completeCycle_eq_ticked, beginCycle_eq_fetched]
  · rw [step_of_exec_running about run ok, completeCycle_eq_ticked]
  · rw [step_of_exec about run, endCycle_faulted s halted]

/-! ### The tick (R96, R166) -/

section
variable {s t : State} {i : Instr}

theorem Effect.delay_writer (effect : Effect s i t) (changed : t.dt ≠ s.dt) :
    ∃ x, i = .ldDtVx x := by
  cases effect with
  | delay => exact ⟨_, rfl⟩
  | _ => exact absurd rfl changed

theorem Effect.sound_writer (effect : Effect s i t) (changed : t.st ≠ s.st) :
    ∃ x, i = .ldStVx x := by
  cases effect with
  | sound => exact ⟨_, rfl⟩
  | _ => exact absurd rfl changed

/-- A timer that the word does not write goes down by one from its old value. -/
theorem step_ticks_unwritten (timer : State → Byte) {write : Reg → Instr}
    (writer : ∀ {i u}, Effect s.beginCycle i u → timer u ≠ timer s.beginCycle → ∃ x, i = write x)
    (running : s.Running) (h : step s = .next t) (ok : t.Running)
    (other : ∀ x, decode s.fetchWord ≠ .instr (write x))
    (fetch : timer s.beginCycle = timer s := by rfl)
    (complete : ∀ u, timer (State.completeCycle u) = tick (timer u) := by exact fun _ => rfl) :
    timer t = tick (timer s) := by
  obtain ⟨-, rfl⟩ | ⟨i, u, word, run, ⟨-, rfl⟩ | ⟨faulted, rfl⟩⟩ := step_cases running h
  · rw [complete, fetch]
  · have kept : timer u = timer s.beginCycle := by
      by_contra changed
      obtain ⟨x, rfl⟩ := writer (exec_effect run) changed
      exact other x word
    rw [complete, kept, fetch]
  · exact absurd ok faulted

end

/-- Settles O16: a timer is written by its own instruction and by no other, before the tick. -/
theorem timersTickOncePerCycle : Obligations.TimersTickOncePerCycle := by
  intro s t running h ok
  constructor
  · split
    next x word =>
      cases h.symm.trans (step_of_exec_running ⟨running, word⟩ rfl running)
      exact tick_toNat _
    next other =>
      rw [step_ticks_unwritten (·.dt) Effect.delay_writer running h ok other, tick_toNat]
  · split
    next x word =>
      cases h.symm.trans (step_of_exec_running ⟨running, word⟩ rfl running)
      exact tick_toNat _
    next other =>
      rw [step_ticks_unwritten (·.st) Effect.sound_writer running h ok other, tick_toNat]

/-! ### Straight-line execution (R100) -/

/-- The two-run lemma for the sound timer, taken on one state. -/
theorem exec_answers (i : Instr) (s : State) : ∃ t, exec i s = .next t := by
  obtain ⟨t, -, run, -⟩ := sameButSound_exec i (⟨s.st, rfl⟩ : SameButSound s s)
  exact ⟨t, run⟩

theorem Effect.fault_writer {s t : State} {i : Instr} (effect : Effect s i t)
    (changed : t.fault ≠ s.fault) : i = .ret ∨ ∃ nnn, i = .call nnn := by
  cases effect with
  | underflow => exact .inl rfl
  | overflow => exact .inr ⟨_, rfl⟩
  | _ => exact absurd rfl changed

section
variable {s : State} {i : Instr}

theorem not_straight_of_stack (word : decode s.fetchWord = .instr i)
    (stack : i = .ret ∨ ∃ nnn, i = .call nnn) : ¬ s.Straight := by
  unfold State.Straight
  rw [word]
  obtain rfl | ⟨nnn, rfl⟩ := stack <;> exact id

/-- For a straight-line word the table of R24 gives the advanced `pc`. -/
theorem pcAfter_of_straight (word : decode s.fetchWord = .instr i) (straight : s.Straight) :
    s.pcAfter i = (s.pc.toNat + 2) % 4096 := by
  unfold State.Straight at straight
  rw [word] at straight
  cases i with
  | jp | call | ret | jpV0 => exact straight.elim
  | seByte | seReg | ldVxK => exact if_neg straight
  | sneByte | sneReg | sknp => exact if_pos straight
  | skp => exact if_neg (Bool.eq_false_iff.mp straight)
  | cls | ldByte | addByte | ldReg | orReg | andReg | xorReg | addReg | subReg | shr | subnReg | shl
  | ldI | rnd | drw | ldVxDt | ldDtVx | ldStVx | addI | ldF | ldB | ldMemVx | ldVxMem => rfl

theorem step_straight (running : s.Running) (straight : s.Straight) :
    ∃ t, step s = .next t ∧ t.Running ∧ t.pc.toNat = (s.pc.toNat + 2) % 4096 := by
  cases word : decode s.fetchWord with
  | undefinedWord => exact ⟨_, step_undefinedWord running word, running, toPc_toNat _⟩
  | instr i =>
    obtain ⟨u, run⟩ := exec_answers i s.beginCycle
    have ok : u.Running := by
      by_contra faulted
      have changed : u.fault ≠ s.beginCycle.fault := fun same => faulted (same.trans running)
      exact not_straight_of_stack word ((exec_effect run).fault_writer changed) straight
    exact ⟨_, step_of_exec_running ⟨running, word⟩ run ok, ok,
      (exec_pc run ok).trans (pcAfter_of_straight word straight)⟩

end

/-- Settles O18, by induction on the number of cycles. -/
theorem straightLineAdvancesByTwo : Obligations.StraightLineAdvancesByTwo := by
  intro k
  induction k with
  | zero => exact fun s inv running _ => ⟨s, rfl, running, (Nat.mod_eq_of_lt inv.1).symm⟩
  | succ k ih =>
    intro s inv running ⟨_, straight, rest⟩
    obtain ⟨u, first, ok, advanced⟩ := step_straight running straight
    obtain ⟨t, run, ok', pc⟩ := ih u (invariantIsKept s u inv first) ok (rest u first)
    refine ⟨t, (run_succ k first).trans run, ok', ?_⟩
    rw [pc, advanced]
    omega

end Sys2Proof.Machine
end

section
/-! Settlement about the inputs of a cycle: which instructions read the keypad sample, and which
the random byte (R35, R36, R99). -/

namespace Sys2Proof.Machine

/-- The instructions that read the keypad sample (R35, R99). -/
def ReadsKeys (i : Instr) : Prop := ∃ x, i = .skp x ∨ i = .sknp x ∨ i = .ldVxK x

/-- The instruction that reads the random byte (R36, R99). -/
def ReadsRnd (i : Instr) : Prop := ∃ x kk, i = .rnd x kk

/-- Two states that differ at most in the inputs presented. -/
def SameButInputs (s s' : State) : Prop := ∃ l, s' = s.withInputs l

theorem dumpRegs_withInputs (s : State) (l : List Inputs) (rs : List Reg) :
    (s.withInputs l).dumpRegs rs = (s.dumpRegs rs).withInputs l := by
  rw [State.dumpRegs, State.dumpRegs]
  exact List.foldl_hom (State.withInputs · l) fun _ _ => rfl

theorem loadRegs_withInputs (s : State) (l : List Inputs) (rs : List Reg) :
    (s.withInputs l).loadRegs rs = (s.loadRegs rs).withInputs l := by
  rw [State.loadRegs, State.loadRegs]
  exact List.foldl_hom (State.withInputs · l) fun _ _ => rfl

/-- An instruction carries the inputs through, and depends on them only by what it reads. -/
theorem sameButInputs_exec {i : Instr} {s s' : State} (same : SameButInputs s s')
    (keys : ReadsKeys i → s'.keys = s.keys) (rnd : ReadsRnd i → s'.rnd = s.rnd) :
    ∃ t t', exec i s = .next t ∧ exec i s' = .next t' ∧ SameButInputs t t' := by
  obtain ⟨l, rfl⟩ := same
  cases i with
  | rnd x kk =>
    refine ⟨_, _, rfl, rfl, l, ?_⟩
    rw [rnd ⟨x, kk, rfl⟩]
    rfl
  | skp x =>
    refine ⟨_, _, rfl, rfl, l, ?_⟩
    rw [State.keyPressed, keys ⟨x, .inl rfl⟩]
    rfl
  | sknp x =>
    refine ⟨_, _, rfl, rfl, l, ?_⟩
    rw [State.keyPressed, keys ⟨x, .inr (.inl rfl)⟩]
    rfl
  | ldVxK x =>
    refine ⟨_, _, rfl, rfl, l, ?_⟩
    rw [keys ⟨x, .inr (.inr rfl)⟩]
    split <;> rfl
  | call nnn =>
    by_cases full : s.sp.val = 16
    · exact ⟨_, _, dif_pos full, dif_pos full, l, rfl⟩
    · exact ⟨_, _, dif_neg full, dif_neg full, l, rfl⟩
  | ret =>
    by_cases empty : s.sp.val = 0
    · exact ⟨_, _, dif_pos empty, dif_pos empty, l, rfl⟩
    · exact ⟨_, _, dif_neg empty, dif_neg empty, l, rfl⟩
  | ldMemVx => exact ⟨_, _, rfl, rfl, l, dumpRegs_withInputs ..⟩
  | ldVxMem => exact ⟨_, _, rfl, rfl, l, loadRegs_withInputs ..⟩
  | cls | jp | seByte | sneByte | seReg | ldByte | addByte | ldReg | orReg | andReg | xorReg
  | addReg | subReg | shr | subnReg | shl | sneReg | ldI | jpV0 | drw | ldVxDt | ldDtVx | ldStVx
  | addI | ldF | ldB => exact ⟨_, _, rfl, rfl, l, rfl⟩

/-- The end of a cycle does not look at the inputs. -/
theorem endCycle_withInputs (s t : State) (before after final : List Inputs) :
    ((s.withInputs before).endCycle (t.withInputs after)).withInputs final =
      (s.endCycle t).withInputs final := by
  by_cases ok : t.Running
  · rw [endCycle_running s ok, endCycle_running (t := t.withInputs after) _ ok]
    rfl
  · rw [endCycle_faulted s ok, endCycle_faulted (t := t.withInputs after) _ ok]
    rfl

theorem cycle_of_exec {s u : State} {i : Instr} {keys : Word} {rnd : Byte} (about : s.About i)
    (run : exec i (s.beginCycle.withInputs (⟨keys, rnd⟩ :: s.inputs)) = .next u) :
    cycle keys rnd s = .next ((s.endCycle u).withInputs s.inputs) := by
  have ends := endCycle_withInputs s u (⟨keys, rnd⟩ :: s.inputs) u.inputs s.inputs
  exact (cycle_of_step_withInputs (step_of_exec about run)).trans (congrArg _ ends)

/-- A cycle gives the same answer under inputs that agree in what its instruction reads. -/
theorem cycle_congr_inputs (s : State) {keys keys' : Word} {rnd rnd' : Byte}
    (sameKeys : ∀ i, decode s.fetchWord = .instr i → ReadsKeys i → keys' = keys)
    (sameRnd : ∀ i, decode s.fetchWord = .instr i → ReadsRnd i → rnd' = rnd) :
    cycle keys rnd s = cycle keys' rnd' s := by
  by_cases running : s.Running
  · cases word : decode s.fetchWord with
    | undefinedWord => rw [cycle_undefinedWord running word, cycle_undefinedWord running word]
    | instr i =>
      obtain ⟨t, _, run, run', l, rfl⟩ := sameButInputs_exec
        (s := s.beginCycle.withInputs (⟨keys, rnd⟩ :: s.inputs))
        (s' := s.beginCycle.withInputs (⟨keys', rnd'⟩ :: s.inputs))
        ⟨_, rfl⟩ (sameKeys i word) (sameRnd i word)
      rw [cycle_of_exec ⟨running, word⟩ run, cycle_of_exec ⟨running, word⟩ run']
      exact congrArg _ (endCycle_withInputs s t s.inputs l s.inputs).symm
  · rw [cycle_halted running, cycle_halted running]

/-- Settles O21: the inputs that may differ are those the word's instruction does not read. -/
theorem inputsMatterOnlyWhereRead : Obligations.InputsMatterOnlyWhereRead := by
  intro s keys keys' rnd rnd'
  refine ⟨fun noKeys => cycle_congr_inputs s ?_ fun _ _ _ => rfl,
    fun noRnd => cycle_congr_inputs s (fun _ _ _ => rfl) ?_⟩
  · rintro _ word ⟨x, rfl | rfl | rfl⟩
    · exact absurd word (noKeys x).1
    · exact absurd word (noKeys x).2.1
    · exact absurd word (noKeys x).2.2
  · rintro _ word ⟨x, kk, rfl⟩
    exact absurd word (noRnd x kk)

end Sys2Proof.Machine
end

section
/-! Settlements about control transfer: jumps, the return stack and the register skips (R110 to
R118). -/

namespace Sys2Proof.Machine

/-- The row at a place of the opcode map decodes every word that belongs to it (R74). -/
theorem decodesTo_row (k : Nat) (inside : k < opcodeTable.length := by decide) :
    DecodesTo opcodeTable[k].mask opcodeTable[k].fixed opcodeTable[k].build :=
  fun _ belongs => decode_of_hit (List.getElem_mem inside) (OpcodeRow.hit_iff.mpr belongs)

/-! ### Frames of control transfer -/

section
variable (s : State)

/-- Every write of `pc` meets the frame: a jump, a skip, a stall. -/
theorem onlyPc_of_pc (p : Word) : OnlyPc s { s with pc := p } :=
  ⟨fun _ => rfl, rfl, rfl, rfl, rfl, rfl, rfl, fun _ => rfl, rfl, rfl, rfl, rfl⟩

/-- Every write of `pc`, `sp` and the stack meets the frame of the entries it may change. -/
theorem onlyPcStack_of_stack {P : Fin 16 → Prop} {stk : Vector Word 16} (p : Word) (n : Fin 17)
    (kept : ∀ i : Fin 16, ¬ P i → stk[i] = s.STK[i]) :
    OnlyPcStack P s { s with pc := p, sp := n, STK := stk } :=
  ⟨fun _ => rfl, rfl, kept, rfl, rfl, rfl, fun _ => rfl, rfl, rfl, rfl, rfl⟩

end

/-! ### Jumps (R111, R118) -/

/-- Settles O28: an address is below 4096 already, so writing it to `pc` reduces nothing. -/
theorem jpSetsPc : Obligations.JpSetsPc :=
  ⟨decodesTo_row 2, fun nnn s => ⟨_, rfl, toPc_addr_toNat nnn, onlyPc_of_pc s _⟩⟩

/-- Settles O31: the sum is a natural number, which the write to `pc` reduces. -/
theorem jpV0AddsTheOffset : Obligations.JpV0AddsTheOffset :=
  ⟨decodesTo_row 20, fun _ s => ⟨_, rfl, toPc_toNat _, onlyPc_of_pc s _⟩⟩

/-! ### Skips (R113 to R117) -/

section
variable {s : State} {c : Bool} {p : Prop} [Decidable p]

theorem skipIf_pc_toNat (test : c = true ↔ p) :
    (s.skipIf c).pc.toNat = if p then (s.pc.toNat + 2) % 4096 else s.pc.toNat := by
  rw [skipIf_pc]
  by_cases skips : p
  · rw [if_pos skips, if_pos (test.mpr skips), toPc_toNat]
  · rw [if_neg skips, if_neg (skips ∘ test.mp)]

/-- What every skip instruction does, whatever condition `p` it tests. -/
theorem exec_skip {i : Instr} (run : exec i s = .next (s.skipIf c)) (test : c = true ↔ p) :
    ∃ t, exec i s = .next t ∧ OnlyPc s t ∧
      t.pc.toNat = if p then (s.pc.toNat + 2) % 4096 else s.pc.toNat :=
  ⟨_, run, onlyPc_of_pc s _, skipIf_pc_toNat test⟩

end

/-- Settles O30: the four rows, and each comparison as the condition of a skip. -/
theorem skipsTestRegisters : Obligations.SkipsTestRegisters :=
  ⟨decodesTo_row 4, decodesTo_row 5, decodesTo_row 6, decodesTo_row 18, fun _ _ _ _ =>
    ⟨exec_skip rfl decide_eq_true_iff, exec_skip rfl decide_eq_true_iff,
      exec_skip rfl decide_eq_true_iff, exec_skip rfl decide_eq_true_iff⟩⟩

/-! ### The return stack (R31, R110, R112) -/

section
variable {s : State}

theorem pushPc_STK_top (free : s.sp.val < 16) : (s.pushPc free).STK[s.sp.val] = s.pc :=
  Vector.getElem_set_self free

theorem pushPc_STK_other (free : s.sp.val < 16) (i : Fin 16) (other : i.val ≠ s.sp.val) :
    (s.pushPc free).STK[i] = s.STK[i] :=
  Vector.getElem_set_ne free i.isLt other.symm

theorem exec_call_of_free (nnn : Addr) (free : s.sp.val < 16) :
    exec (.call nnn) s = .next ((s.pushPc free).setPc nnn.toNat) :=
  dif_neg free.ne

theorem exec_call_of_full (nnn : Addr) (full : s.sp.val = 16) :
    exec (.call nnn) s = .next { s with fault := .stackOverflow } :=
  dif_pos full

theorem exec_ret_of_open (isOpen : 0 < s.sp.val) : exec .ret s = .next (s.popPc isOpen) :=
  dif_neg isOpen.ne'

theorem exec_ret_of_empty (empty : s.sp.val = 0) :
    exec .ret s = .next { s with fault := .stackUnderflow } :=
  dif_pos empty

/-- The cycle of an instruction that raises a fault is precise (R90 step 4, R173). -/
theorem step_of_exec_raise {i : Instr} {f : FaultCode} (about : s.About i)
    (run : exec i s.beginCycle = .next { s.beginCycle with fault := f }) (fault : f ≠ .running) :
    step s = .next { s with fault := f } := by
  rw [step_of_exec about run, endCycle_faulted s fault]

end

/-- Settles O29: the push and the jump with an entry free, the fault with none. -/
theorem callPushesTheReturnAddress : Obligations.CallPushesTheReturnAddress := by
  refine ⟨decodesTo_row 3, fun nnn s free => ?free, fun nnn s about full => ?full⟩
  case free =>
    exact ⟨_, exec_call_of_free nnn free, pushPc_STK_top free, rfl, toPc_addr_toNat nnn,
      onlyPcStack_of_stack s _ _ (pushPc_STK_other free)⟩
  case full =>
    have run := exec_call_of_full (s := s.beginCycle) nnn (congrArg Fin.val full)
    exact step_of_exec_raise about run FaultCode.noConfusion

/-- Settles O27: the pop with an entry open, which leaves the stack's entries, and the fault with
none. -/
theorem retPopsTheReturnAddress : Obligations.RetPopsTheReturnAddress := by
  refine ⟨decodesTo_row 1, fun s isOpen => ?isOpen, fun s about empty => ?empty⟩
  case isOpen =>
    exact ⟨_, exec_ret_of_open isOpen, rfl, toPc_toNat _,
      onlyPcStack_of_stack s _ _ fun _ _ => rfl⟩
  case empty =>
    have run := exec_ret_of_empty (s := s.beginCycle) (congrArg Fin.val empty)
    exact step_of_exec_raise about run FaultCode.noConfusion

/-- Settles O32: the return pops the entry that the call pushed, and leaves it in the stack. -/
theorem retUndoesCall : Obligations.RetUndoesCall := by
  intro nnn s t pc free call
  cases call.symm.trans (exec_call_of_free nnn free)
  have isOpen : 0 < ((s.pushPc free).setPc nnn.toNat).sp.val := Nat.succ_pos _
  refine ⟨_, exec_ret_of_open isOpen, ?back, rfl,
    onlyPcStack_of_stack s _ _ (pushPc_STK_other free)⟩
  calc toPc ((s.pushPc free).STK[s.sp.val]).toNat
    _ = toPc s.pc.toNat := by rw [pushPc_STK_top]
    _ = s.pc := toPc_self pc

end Sys2Proof.Machine
end

section
/-! Settlements about register loads, arithmetic, logic, shifts and random (R120 to R132). -/

namespace Sys2Proof.Machine

/-! ### Frames and results of register writes (R20, R120) -/

section
variable {s : State}

/-- Every write of the register file meets the frame of the registers it may change. -/
theorem onlyRegs_of_regs {P : Reg → Prop} {V : Vector Byte 16}
    (kept : ∀ r : Reg, ¬ P r → V[r] = s.reg r) : OnlyRegs P s { s with V := V } :=
  ⟨kept, rfl, rfl, rfl, rfl, rfl, rfl, rfl, fun _ => rfl, rfl, rfl, rfl, rfl⟩

theorem onlyRegs_setReg {x : Reg} {v : Byte} : OnlyRegs (fun r => r = x) s (s.setReg x v) :=
  onlyRegs_of_regs fun _ other => reg_setReg_other s v other

theorem onlyRegs_setFlagThenReg {f : Bool} {x : Reg} {v : Byte} :
    OnlyRegs (fun r => r = x ∨ r = 15) s (s.setFlagThenReg f x v) := by
  refine onlyRegs_of_regs fun r other => (reg_setFlagThenReg s f x r v).trans ?_
  rw [if_neg (other ∘ .inl), if_neg (other ∘ .inr)]

theorem reg_setFlagThenReg_same {f : Bool} {x : Reg} {v : Byte} :
    (s.setFlagThenReg f x v).reg x = v :=
  reg_setReg_same ..

theorem reg_setFlagThenReg_flag {f : Bool} {x : Reg} {v : Byte} (ne : x ≠ 15) :
    (s.setFlagThenReg f x v).reg 15 = flagByte f := by
  rw [reg_setFlagThenReg, if_neg ne.symm, if_pos rfl]

/-- What every arithmetic instruction with a flag does, `value` and `flag` as numbers; the
flag is lost when `VF` is the destination (R120). -/
theorem exec_flagged {i : Instr} {f : Bool} {x : Reg} {v : Byte} {value flag : Nat}
    (run : exec i s = .next (s.setFlagThenReg f x v)) (result : v.toNat = value)
    (flagged : (flagByte f).toNat = flag) :
    ∃ t, exec i s = .next t ∧ OnlyRegs (fun r => r = x ∨ r = 15) s t ∧
      (t.reg x).toNat = value ∧ (x ≠ 15 → (t.reg 15).toNat = flag) := by
  refine ⟨_, run, onlyRegs_setFlagThenReg, ?result, fun ne => ?flag⟩
  case result => rw [reg_setFlagThenReg_same, result]
  case flag => rw [reg_setFlagThenReg_flag ne, flagged]

end

/-! ### Flags and results as numbers (R22, R127 to R131) -/

theorem flagByte_decide_toNat (p : Prop) [Decidable p] :
    (flagByte (decide p)).toNat = if p then 1 else 0 := by
  by_cases holds : p
  · rw [decide_eq_true holds, if_pos holds]; rfl
  · rw [decide_eq_false holds, if_neg holds]; rfl

/-- The flag of a shift is the bit shifted out, as a number. -/
theorem flagByte_bit_toNat {n : Nat} (bit : n < 2) : (flagByte (decide (n = 1))).toNat = n := by
  rw [flagByte_decide_toNat]
  split <;> omega

theorem byte_sub_toNat (a b : Byte) : (a - b).toNat = (a.toNat + 256 - b.toNat) % 256 := by
  have := b.isLt
  rw [BitVec.toNat_sub]
  omega

theorem byte_half_toNat (a : Byte) : (BitVec.ofNat 8 (a.toNat / 2)).toNat = a.toNat / 2 := by
  have := a.isLt
  rw [BitVec.toNat_ofNat]
  omega

/-! ### Instructions without a flag (R121 to R126, R132) -/

/-- Settles O34: both loads are a single register write. -/
theorem registerLoadsCopy : Obligations.RegisterLoadsCopy :=
  ⟨decodesTo_row 7, decodesTo_row 9, fun _ _ _ _ =>
    ⟨⟨_, rfl, reg_setReg_same .., onlyRegs_setReg⟩,
      ⟨_, rfl, reg_setReg_same .., onlyRegs_setReg⟩⟩⟩

/-- Settles O35: the sum is a natural number, which the write to the register reduces. -/
theorem addByteWrapsWithoutFlag : Obligations.AddByteWrapsWithoutFlag := by
  refine ⟨decodesTo_row 8, fun x kk s => ⟨_, rfl, ?sum, onlyRegs_setReg⟩⟩
  case sum => rw [reg_setReg_same, BitVec.toNat_ofNat]

/-- Settles O36: the three operations on bytes are the operations on their bits. -/
theorem logicIsBitwiseWithoutFlag : Obligations.LogicIsBitwiseWithoutFlag := by
  refine ⟨decodesTo_row 10, decodesTo_row 11, decodesTo_row 12, fun x y s =>
    ⟨⟨_, rfl, onlyRegs_setReg, fun k _ => ?or⟩, ⟨_, rfl, onlyRegs_setReg, fun k _ => ?and⟩,
      ⟨_, rfl, onlyRegs_setReg, fun k _ => ?xor⟩⟩⟩
  case or => rw [reg_setReg_same, BitVec.getLsbD_or]
  case and => rw [reg_setReg_same, BitVec.getLsbD_and]
  case xor => rw [reg_setReg_same, BitVec.getLsbD_xor, Bool.bne_eq_xor]

/-- Settles O40: the byte under the mask, and the byte that the host presents is the one read. -/
theorem rndMasksTheRandomByte : Obligations.RndMasksTheRandomByte := by
  refine ⟨decodesTo_row 21, fun x kk s =>
    ⟨⟨_, rfl, reg_setReg_same .., ?inMask, onlyRegs_setReg⟩,
      fun keys byte later => ⟨_, rfl, reg_setReg_same ..⟩⟩⟩
  case inMask =>
    rw [reg_setReg_same, BitVec.and_assoc, BitVec.and_not_self]
    exact BitVec.and_zero

/-! ### Instructions with a flag (R127 to R131) -/

/-- Settles O37: the carry is decided on the exact sum, which the write to the register reduces. -/
theorem addRegSetsCarry : Obligations.AddRegSetsCarry := by
  refine ⟨decodesTo_row 13, fun x y s => ?_⟩
  obtain ⟨t, run, frame, sum, carry⟩ :=
    exec_flagged (i := .addReg x y) (s := s) rfl (BitVec.toNat_ofNat ..) (flagByte_decide_toNat _)
  exact ⟨t, run, sum, carry, frame⟩

/-- Settles O38: one subtraction with its operands in either order. -/
theorem subtractionsSetStrictlyGreater : Obligations.SubtractionsSetStrictlyGreater :=
  ⟨decodesTo_row 14, decodesTo_row 16, fun _ _ _ =>
    ⟨exec_flagged rfl (byte_sub_toNat ..) (flagByte_decide_toNat _),
      exec_flagged rfl (byte_sub_toNat ..) (flagByte_decide_toNat _)⟩⟩

/-- Settles O39: a byte has one bit to drop at either end, its remainder by 2 and its quotient by
128. -/
theorem shiftsDropOneBitIntoTheFlag : Obligations.ShiftsDropOneBitIntoTheFlag := by
  refine ⟨decodesTo_row 15, decodesTo_row 17, fun x s => ⟨?shr, ?shl⟩⟩
  case shr =>
    have bit : (s.reg x).toNat % 2 < 2 := Nat.mod_lt _ (by decide)
    exact exec_flagged rfl (byte_half_toNat _) (flagByte_bit_toNat bit)
  case shl =>
    have bit : (s.reg x).toNat / 128 < 2 := Nat.div_lt_of_lt_mul (s.reg x).isLt
    exact exec_flagged rfl (BitVec.toNat_ofNat ..) (flagByte_bit_toNat bit)

end Sys2Proof.Machine
end

section
/-! Settlements about the index register, loads and stores (R140 to R147). -/

namespace Sys2Proof.Machine

/-! ### Frames of index and memory writes -/

section
variable {s : State}

/-- What every writer of `I` does, `index` being the address or sum as a number. -/
theorem exec_setIndex {i : Instr} {n index : Nat} (run : exec i s = .next (s.setIndex n))
    (value : n % 65536 = index) :
    ∃ t, exec i s = .next t ∧ t.I.toNat = index ∧ OnlyIndex s t :=
  ⟨_, run, (BitVec.toNat_ofNat ..).trans value,
    fun _ => rfl, rfl, rfl, rfl, rfl, rfl, rfl, fun _ => rfl, rfl, rfl, rfl, rfl⟩

/-- Every write of memory meets the frame of the addresses it may change. -/
theorem onlyMem_of_memory {Stored : Nat → Prop} {m : Memory}
    (kept : ∀ a, ¬ Stored a → ({ s with MEM := m } : State).memRead a = s.memRead a) :
    OnlyMem Stored s { s with MEM := m } :=
  ⟨fun _ => rfl, rfl, rfl, rfl, rfl, rfl, rfl, rfl, kept, rfl, rfl, rfl, rfl⟩

/-! ### Block transfers of `V[0]` to `V[x]` (R144 to R146) -/

variable {x i : Reg}

theorem dumpRegs_regsUpTo_memRead (wf : Memory.wf s.MEM = true) (dumped : i ≤ x) :
    (s.dumpRegs (regsUpTo x)).memRead (s.I.toNat + i.val) = s.reg i :=
  dumpRegs_memRead_stored wf (mem_regsUpTo.mpr dumped) rfl

theorem onlyMem_dumpRegs : OnlyMem (fun a => ∃ i, i ≤ x ∧ a % 4096 = (s.I.toNat + i.val) % 4096)
    s (s.dumpRegs (regsUpTo x)) := by
  rw [dumpRegs_eq]
  refine onlyMem_of_memory fun _ other => ?_
  exact dumpRegs_memRead_other fun i mem same => other ⟨i, mem_regsUpTo.mp mem, same⟩

theorem loadRegs_regsUpTo_reg (loaded : i ≤ x) :
    (s.loadRegs (regsUpTo x)).reg i = s.memRead (s.I.toNat + i.val) :=
  (loadRegs_reg ..).trans (if_pos (mem_regsUpTo.mpr loaded))

theorem onlyRegs_loadRegs : OnlyRegs (fun r => r ≤ x) s (s.loadRegs (regsUpTo x)) := by
  rw [loadRegs_eq]
  refine onlyRegs_of_regs fun _ above => ?_
  exact (loadRegs_reg ..).trans (if_neg (above ∘ mem_regsUpTo.mp))

end

/-- Settles O43: the dump stores at distinct addresses, so each byte holds its own register. -/
theorem registerDumpStoresTheRange : Obligations.RegisterDumpStoresTheRange :=
  ⟨decodesTo_row 32, fun _ _ =>
    ⟨_, rfl, fun wf _ dumped => dumpRegs_regsUpTo_memRead wf dumped, onlyMem_dumpRegs⟩⟩

/-- Settles O44: the load reads bytes that none of its register writes changes. -/
theorem registerLoadReadsTheRange : Obligations.RegisterLoadReadsTheRange :=
  ⟨decodesTo_row 33, fun _ _ =>
    ⟨_, rfl, fun _ loaded => loadRegs_regsUpTo_reg loaded, onlyRegs_loadRegs⟩⟩

/-- Settles O45: the load reads the byte that the dump stored, since `I` names one address twice. -/
theorem dumpThenLoadRestores : Obligations.DumpThenLoadRestores := by
  intro x s t u v wf dump sameIndex sameBytes load i le
  cases dump
  cases load
  calc (u.loadRegs (regsUpTo x)).reg i
    _ = u.memRead (u.I.toNat + i.val) := loadRegs_regsUpTo_reg le
    _ = u.memRead (s.I.toNat + i.val) := by rw [sameIndex]
    _ = (s.dumpRegs (regsUpTo x)).memRead (s.I.toNat + i.val) := sameBytes i le
    _ = s.reg i := dumpRegs_regsUpTo_memRead wf le

/-! ### The writers of `I` (R140 to R142) -/

/-- Settles O41: an address and a glyph address fit in sixteen bits, the sum wraps. -/
theorem indexInstructionsWriteOnlyI : Obligations.IndexInstructionsWriteOnlyI := by
  refine ⟨decodesTo_row 19, decodesTo_row 29, decodesTo_row 30, fun x nnn s =>
    ⟨exec_setIndex rfl ?address, exec_setIndex rfl rfl, exec_setIndex rfl ?glyph⟩⟩
  case address => exact Nat.mod_eq_of_lt (nnn.isLt.trans (by decide))
  case glyph =>
    have digit : (s.reg x).toNat % 16 < 16 := Nat.mod_lt _ (by decide)
    exact Nat.mod_eq_of_lt (by simp only [glyphAddr, Config.fontBase, Config.glyphSize]; omega)

/-! ### Binary-coded decimal (R143) -/

theorem hundreds_toNat (v : Byte) : (hundreds v).toNat = v.toNat / 100 := by
  have := v.isLt
  rw [hundreds, BitVec.toNat_ofNat]
  omega

theorem tens_toNat (v : Byte) : (tens v).toNat = v.toNat / 10 % 10 := by
  rw [tens, BitVec.toNat_ofNat]
  omega

theorem ones_toNat (v : Byte) : (ones v).toNat = v.toNat % 10 := by
  rw [ones, BitVec.toNat_ofNat]
  omega

section
variable {s : State} {a : Nat} {u v w : Byte}

/-- Three bytes stored at `a`, `a + 1` and `a + 2` read back: a later store leaves an earlier one,
at the wrap too (R65). -/
theorem memRead_three_memWrites (wf : Memory.wf s.MEM = true) :
    let t := ((s.memWrite a u).memWrite (a + 1) v).memWrite (a + 2) w
    t.memRead a = u ∧ t.memRead (a + 1) = v ∧ t.memRead (a + 2) = w := by
  have wf_u := memWrite_wf a u wf
  have wf_v := memWrite_wf (a + 1) v wf_u
  refine ⟨?first, ?second, memRead_memWrite_same w wf_v rfl⟩
  case first =>
    rw [memRead_memWrite_other w (by omega), memRead_memWrite_other v (by omega),
      memRead_memWrite_same u wf rfl]
  case second =>
    rw [memRead_memWrite_other w (by omega), memRead_memWrite_same v wf_u rfl]

theorem onlyMem_three_memWrites : OnlyMem (fun b => ∃ k < 3, b % 4096 = (a + k) % 4096) s
    (((s.memWrite a u).memWrite (a + 1) v).memWrite (a + 2) w) := by
  refine onlyMem_of_memory fun b other => ?_
  have apart (k : Nat) (lt : k < 3) : b % 4096 ≠ (a + k) % 4096 := fun same => other ⟨k, lt, same⟩
  calc (((s.memWrite a u).memWrite (a + 1) v).memWrite (a + 2) w).memRead b
    _ = ((s.memWrite a u).memWrite (a + 1) v).memRead b :=
      memRead_memWrite_other w (apart 2 (by decide))
    _ = (s.memWrite a u).memRead b := memRead_memWrite_other v (apart 1 (by decide))
    _ = s.memRead b := memRead_memWrite_other u (apart 0 (by decide))

end

/-- Settles O42: three stores of bytes, each digit below 256. -/
theorem bcdStoresThreeDigits : Obligations.BcdStoresThreeDigits := by
  refine ⟨decodesTo_row 31, fun x s => ⟨_, rfl, fun wf => ?digits, onlyMem_three_memWrites⟩⟩
  case digits =>
    obtain ⟨atI, atNext, atLast⟩ := memRead_three_memWrites (a := s.I.toNat)
      (u := hundreds (s.reg x)) (v := tens (s.reg x)) (w := ones (s.reg x)) wf
    exact ⟨(congrArg BitVec.toNat atI).trans (hundreds_toNat _),
      (congrArg BitVec.toNat atNext).trans (tens_toNat _),
      (congrArg BitVec.toNat atLast).trans (ones_toNat _)⟩

end Sys2Proof.Machine
end

section
/-! Settlements about the display: clearing, and drawing with collision detection (R150 to R153). -/

namespace Sys2Proof.Machine

/-! ### What drawing does to the framebuffer (R152, R153) -/

/-- Drawing leads from `d` to `e` by toggling exactly the cells of `covers`, and sees a collision
where one of them was on in `d`. -/
structure Draws (covers : Nat → Nat → Prop) (d e : Drawing) : Prop where
  changed : ∀ yy xx, e.1.cell yy xx ≠ d.1.cell yy xx ↔ covers yy xx
  flag : e.2 = true ↔ d.2 = true ∨ ∃ yy xx, covers yy xx ∧ d.1.cell yy xx = true

namespace Draws
variable {covers covers' : Nat → Nat → Prop} {d e f : Drawing}

theorem nothing (none : ∀ yy xx, ¬ covers yy xx) : Draws covers d d :=
  ⟨fun yy xx => by simp [none], by simp [none]⟩

theorem congr (draws : Draws covers d e) (same : ∀ yy xx, covers yy xx ↔ covers' yy xx) :
    Draws covers' d e :=
  (funext₂ fun yy xx => propext (same yy xx) : covers = covers') ▸ draws

/-- Two drawings on disjoint cells are one on all of them: the second sees the cells it covers as
they were before the first. -/
theorem trans (first : Draws covers d e) (second : Draws covers' e f)
    (disjoint : ∀ yy xx, covers yy xx → ¬ covers' yy xx) :
    Draws (fun yy xx => covers yy xx ∨ covers' yy xx) d f := by
  have untouched (yy xx : Nat) (later : covers' yy xx) : e.1.cell yy xx = d.1.cell yy xx :=
    not_not.mp fun changed => disjoint yy xx ((first.changed yy xx).mp changed) later
  refine ⟨fun yy xx => ?changed, ?flag⟩
  case changed =>
    have apart := disjoint yy xx
    rw [← first.changed, ← second.changed] at apart ⊢
    revert apart
    cases d.1.cell yy xx <;> cases e.1.cell yy xx <;> cases f.1.cell yy xx <;> decide
  case flag =>
    have sees (yy xx : Nat) : covers' yy xx ∧ e.1.cell yy xx = true ↔
        covers' yy xx ∧ d.1.cell yy xx = true :=
      and_congr_right fun later => by rw [untouched yy xx later]
    simp only [second.flag, first.flag, sees, or_and_right, exists_or, or_assoc]

/-- A loop whose passes draw on disjoint cells draws on the cells of all its passes. -/
theorem foldl_range {pass : Drawing → Nat → Drawing} {cells : Nat → Nat → Nat → Prop}
    (draws : ∀ k d, Draws (cells k) d (pass d k))
    (disjoint : ∀ {j k yy xx}, cells j yy xx → cells k yy xx → j = k) (n : Nat) :
    Draws (fun yy xx => ∃ k < n, cells k yy xx) d ((List.range n).foldl pass d) := by
  induction n with
  | zero => exact nothing (by simp)
  | succ n ih =>
    rw [List.range_succ, List.foldl_append]
    refine (ih.trans (draws n _) ?apart).congr fun yy xx => Nat.exists_lt_succ_right.symm
    case apart =>
      rintro yy xx ⟨k, lt, earlier⟩ now
      exact lt.ne (disjoint earlier now)

end Draws

section
variable {d : Drawing} {yy : Nat}

theorem draws_drawPixel (row : yy < 32) (xx : Nat) (bit : Bool) :
    Draws (fun r c => r = yy ∧ c = xx ∧ c < 64 ∧ bit = true) d (drawPixel yy xx bit d) := by
  rw [drawPixel_eq]
  split
  case isFalse skipped =>
    refine .nothing fun r c => ?_
    rintro ⟨-, rfl, inside, on⟩
    exact skipped ⟨on, Nat.le_of_lt_succ inside⟩
  case isTrue set =>
    obtain ⟨on, column⟩ := set
    refine ⟨fun r c => ?changed, ?flag⟩
    case changed =>
      rw [cell_toggle]
      split
      case isTrue here =>
        obtain ⟨rfl, rfl, -, inside⟩ := here
        simp [on, inside]
      case isFalse elsewhere =>
        refine iff_of_false (not_not.mpr rfl) ?_
        rintro ⟨rfl, rfl, inside, -⟩
        exact elsewhere ⟨rfl, rfl, row, inside⟩
    case flag =>
      have inside : xx < 64 := by omega
      simp [on, inside]

/-- The passes of a row draw on different columns. -/
theorem draws_drawRow (row : yy < 32) (b : Byte) (x0 : Nat) :
    Draws (fun r c => ∃ k < 8, r = yy ∧ c = x0 + k ∧ c < 64 ∧ b.getLsbD (7 - k) = true) d
      (drawRow b yy x0 d) :=
  .foldl_range (fun k _ => draws_drawPixel row (x0 + k) (b.getLsbD (7 - k)))
    (by rintro j k r c ⟨-, rfl, -⟩ ⟨-, same, -⟩; omega) 8

end

/-- The passes of a sprite draw on different rows; a row below the grid draws nothing. -/
theorem draws_drawSprite (sprite : Nat → Byte) (x0 y0 n : Nat) (fb : Framebuffer) :
    Draws (fun yy xx => ∃ r < n, yy < 32 ∧ ∃ k < 8, yy = y0 + r ∧ xx = x0 + k ∧ xx < 64 ∧
      (sprite r).getLsbD (7 - k) = true) (fb, false) (drawSprite sprite x0 y0 n fb) := by
  refine .foldl_range (fun r d => ?row) ?disjoint n
  case row =>
    split
    case isTrue inside =>
      refine (draws_drawRow (by omega) (sprite r) x0).congr fun yy xx => ?_
      refine (and_iff_right_of_imp ?_).symm
      rintro ⟨k, -, rfl, -⟩
      omega
    case isFalse below => exact .nothing fun yy xx => by rintro ⟨inside, k, -, rfl, -⟩; omega
  case disjoint =>
    rintro j k yy xx ⟨-, _, -, rfl, -⟩ ⟨-, _, -, same, -⟩
    omega

/-! ### The clipped sprite (R151, R153) -/

section
variable {s t u : State} {x y : Reg} {n : RowCount}

/-- The cells of the grid under a sprite pixel of value 1. -/
def State.spriteCells (s : State) (x y : Reg) (n : RowCount) (yy xx : Nat) : Prop :=
  yy < 32 ∧ xx < 64 ∧ s.spriteCovers x y n yy xx = true

/-- A covered cell is the place of one sprite pixel of value 1, `r` rows and `k` columns from the
start. -/
theorem spriteCovers_iff {yy xx : Nat} : s.spriteCovers x y n yy xx = true ↔
    ∃ r < n.val, ∃ k < 8, yy = (s.reg y).toNat % 32 + r ∧ xx = (s.reg x).toNat % 64 + k ∧
      (s.memRead (s.dataAddr r)).getLsbD (7 - k) = true := by
  simp only [State.spriteCovers, State.dataAddr, Bool.and_eq_true, decide_eq_true_eq]
  generalize (s.reg x).toNat % 64 = x0
  generalize (s.reg y).toNat % 32 = y0
  constructor
  · rintro ⟨⟨⟨⟨top, bottom⟩, left⟩, right⟩, on⟩
    exact ⟨yy - y0, by omega, xx - x0, by omega, by omega, by omega, on⟩
  · rintro ⟨r, row, k, column, rfl, rfl, on⟩
    exact ⟨⟨⟨⟨by omega, by omega⟩, by omega⟩, by omega⟩, by simpa using on⟩

/-- The clipped sprite depends on the position, `I` and memory alone. -/
theorem spriteCells_congr (column : u.reg x = s.reg x) (row : u.reg y = s.reg y)
    (index : u.I = s.I) (memory : KeepsMem s u) : u.spriteCells x y n = s.spriteCells x y n := by
  unfold State.spriteCells State.spriteCovers
  simp only [column, row, index, memory]

/-! ### What `DRW` answers (R152) -/

/-- `DRW` toggles the cells of the clipped sprite, and writes to `VF` whether one of them was on. -/
theorem exec_drw (x y : Reg) (n : RowCount) (s : State) : ∃ fb f,
    exec (.drw x y n) s = .next (State.setFlag { s with FB := fb } f) ∧
      Draws (s.spriteCells x y n) (s.FB, false) (fb, f) := by
  refine ⟨_, _, rfl, (draws_drawSprite ..).congr fun yy xx => ?_⟩
  rw [State.spriteCells, spriteCovers_iff]
  tauto

/-- What a `DRW` that has run did to the framebuffer and to `VF`. -/
theorem draws_of_exec_drw (run : exec (.drw x y n) s = .next t) :
    ∃ f, t.reg 15 = flagByte f ∧ Draws (s.spriteCells x y n) (s.FB, false) (t.FB, f) := by
  obtain ⟨fb, f, answer, draws⟩ := exec_drw x y n s
  cases answer.symm.trans run
  exact ⟨f, reg_setReg_same .., draws⟩

/-- Every write of the framebuffer and the register file meets the frame of the registers it may
change. -/
theorem onlyScreen_of_screen {P : Reg → Prop} {V : Vector Byte 16} {fb : Framebuffer}
    (kept : ∀ r : Reg, ¬ P r → V[r] = s.reg r) : OnlyScreen P s { s with V := V, FB := fb } :=
  ⟨kept, rfl, rfl, rfl, rfl, rfl, rfl, fun _ => rfl, rfl, rfl, rfl, rfl⟩

end

/-- Settles O48: the cells that differ are those of the clipped sprite, and a flag of either value
is the byte 1 or 0. -/
theorem drwIsExclusiveOrWithCollision : Obligations.DrwIsExclusiveOrWithCollision := by
  refine ⟨decodesTo_row 22, fun x y n s => ?_⟩
  obtain ⟨fb, f, run, draws⟩ := exec_drw x y n s
  have flag : (State.setFlag { s with FB := fb } f).reg 15 = flagByte f := reg_setReg_same ..
  refine ⟨_, run, fun yy row xx column => ?cell, fun meets => ?collision, fun apart => ?clear,
    onlyScreen_of_screen fun r other => reg_setReg_other s _ other⟩
  case cell =>
    have changed : fb.cell yy xx ≠ s.FB.cell yy xx ↔ s.spriteCovers x y n yy xx = true :=
      (draws.changed yy xx).trans ((and_iff_right row).trans (and_iff_right column))
    rw [setFlag_FB]
    revert changed
    cases fb.cell yy xx <;> cases s.FB.cell yy xx <;> cases s.spriteCovers x y n yy xx <;> decide
  case collision =>
    obtain ⟨yy, row, xx, column, on, covered⟩ := meets
    have collides : f = true := draws.flag.mpr (.inr ⟨yy, xx, ⟨row, column, covered⟩, on⟩)
    rw [flag, collides]
    rfl
  case clear =>
    have misses : f = false := by
      refine Bool.eq_false_iff.mpr fun collides => ?_
      obtain ⟨yy, xx, ⟨row, column, covered⟩, on⟩ := (draws.flag.mp collides).resolve_left nofun
      exact absurd covered (by rw [apart yy row xx column on]; nofun)
    rw [flag, misses]
    rfl

/-- Settles O49: both draws toggle the same cells, and a cell that the first turned on is one the
second finds on. -/
theorem drawingTwiceRestores : Obligations.DrawingTwiceRestores := by
  intro x y n s t u v first screen column row index memory second
  obtain ⟨_, -, firstDraws⟩ := draws_of_exec_drw first
  obtain ⟨f, flag, secondDraws⟩ := draws_of_exec_drw second
  rw [spriteCells_congr column row index memory, screen] at secondDraws
  refine ⟨Framebuffer.ext_cell fun yy _ xx _ => ?restored, ?collision⟩
  case restored =>
    have both := (secondDraws.changed yy xx).trans (firstDraws.changed yy xx).symm
    revert both
    cases v.FB.cell yy xx <;> cases t.FB.cell yy xx <;> cases s.FB.cell yy xx <;> decide
  case collision =>
    rintro ⟨yy, -, xx, -, off, on⟩
    have covered : s.spriteCells x y n yy xx :=
      (firstDraws.changed yy xx).mp (by rw [on, off]; nofun)
    have collides : f = true := secondDraws.flag.mpr (.inr ⟨yy, xx, covered, on⟩)
    rw [flag, collides]
    rfl

/-- Settles O50: a cell that differs lies under a sprite pixel. -/
theorem drwChangesOnlyItsRectangle : Obligations.DrwChangesOnlyItsRectangle := by
  intro x y n s t run yy _ xx _ differs
  obtain ⟨_, -, draws⟩ := draws_of_exec_drw run
  obtain ⟨-, -, covered⟩ := (draws.changed yy xx).mp differs
  obtain ⟨r, below, k, right, rfl, rfl, -⟩ := spriteCovers_iff.mp covered
  omega

/-! ### Clearing (R150) -/

/-- Settles O47: `CLS` writes the framebuffer of the reset state, and no register. -/
theorem clsTurnsEveryCellOff : Obligations.ClsTurnsEveryCellOff :=
  ⟨decodesTo_row 0, fun _ => ⟨_, rfl, cell_reset, onlyScreen_of_screen fun _ _ => rfl⟩⟩

end Sys2Proof.Machine
end

section
/-! Settlements about the keypad and the timers (R160 to R166). -/

namespace Sys2Proof.Machine

/-! ### Key skips (R160, R161) -/

/-- Settles O51: both skips test one bit of the sample, and the sample is the one presented. -/
theorem keySkipsTestTheSample : Obligations.KeySkipsTestTheSample :=
  ⟨decodesTo_row 23, decodesTo_row 24,
    fun _ _ => ⟨exec_skip rfl Iff.rfl, exec_skip rfl (Bool.not_eq_true' _).to_iff⟩,
    fun _ _ _ _ => rfl⟩

/-! ### Frames of the timers and the tick (R96, R164, R165) -/

section
variable {s u : State} {i : Instr}

/-- Every write of the two timers meets their frame. -/
theorem onlyTimers_of_timers {delay sound : Byte} :
    OnlyTimers s { s with dt := delay, st := sound } :=
  ⟨fun _ => rfl, rfl, rfl, rfl, rfl, rfl, fun _ => rfl, rfl, rfl, rfl, rfl⟩

/-- The whole cycle of an instruction that runs keeps the `pc` and the registers its execution
left, and counts down the timers it left. -/
theorem step_ticks_executed (about : s.About i) (run : exec i s.beginCycle = .next u)
    (ok : u.Running) :
    ∃ t, step s = .next t ∧ t.pc = u.pc ∧ KeepsRegs u t ∧ t.dt.toNat = u.dt.toNat - 1 ∧
      t.st.toNat = u.st.toNat - 1 :=
  ⟨_, step_of_exec_running about run ok, rfl, fun _ => rfl, tick_toNat _, tick_toNat _⟩

end

/-- Settles O52: each instruction is a single write, and its cycle counts down what it left. -/
theorem timerInstructionsMoveTheTimers : Obligations.TimerInstructionsMoveTheTimers := by
  refine ⟨decodesTo_row 25, decodesTo_row 27, decodesTo_row 28, fun x s =>
    ⟨⟨_, rfl, reg_setReg_same .., onlyRegs_setReg⟩,
      ⟨_, rfl, rfl, rfl, onlyTimers_of_timers⟩,
      ⟨_, rfl, rfl, rfl, onlyTimers_of_timers⟩,
      fun about => ?readDelay, fun about => ?writeDelay, fun about => ?writeSound⟩⟩
  case readDelay =>
    obtain ⟨t, run, -, regs, delay, sound⟩ := step_ticks_executed about rfl about.1
    exact ⟨t, run, (regs x).trans (reg_setReg_same ..), delay, sound⟩
  case writeDelay =>
    obtain ⟨t, run, -, -, delay, sound⟩ := step_ticks_executed about rfl about.1
    exact ⟨t, run, delay, sound⟩
  case writeSound =>
    obtain ⟨t, run, -, -, delay, sound⟩ := step_ticks_executed about rfl about.1
    exact ⟨t, run, sound, delay⟩

/-! ### The key wait (R163) -/

section
variable {s : State}

theorem exec_ldVxK_of_idle (x : Reg) (idle : s.keys = 0) :
    exec (.ldVxK x) s = .next s.stall :=
  congrArg _ (if_pos idle)

theorem exec_ldVxK_of_pressed (x : Reg) (pressed : s.keys ≠ 0) :
    exec (.ldVxK x) s = .next (s.setReg x (BitVec.ofNat 8 (leastKey s.keys).val)) :=
  congrArg _ (if_neg pressed)

/-- The stall goes back by 2 from any `pc`, past address zero too. -/
theorem stall_pc_add_two (s : State) : (s.stall.pc.toNat + 2) % 4096 = s.pc.toNat % 4096 := by
  rw [stall_pc, toPc_toNat, BitVec.toNat_sub, show (2 : Word).toNat = 2 from rfl]
  omega

end

/-- The number of a key fits in a register. -/
theorem leastKey_toNat (keys : Word) :
    (BitVec.ofNat 8 (leastKey keys).val).toNat = (leastKey keys).val := by
  rw [BitVec.toNat_ofNat]
  omega

/-- Settles O53: a stall without a key, the lowest key otherwise; the stall of a whole cycle undoes
its advance. -/
theorem keyWaitStallsOrTakesTheLowestKey : Obligations.KeyWaitStallsOrTakesTheLowestKey := by
  refine ⟨decodesTo_row 26, fun x s => ⟨fun idle => ?stall, fun pressed => ?take⟩,
    fun x s inside about idle => ?stalledCycle⟩
  case stall =>
    exact ⟨_, exec_ldVxK_of_idle x idle, onlyPc_of_pc s _, stall_pc_add_two s, toPc_lt _⟩
  case take =>
    refine ⟨_, exec_ldVxK_of_pressed x pressed, onlyRegs_setReg, ?_⟩
    obtain ⟨on, lowerOff⟩ := leastKey_spec pressed
    rw [reg_setReg_same, leastKey_toNat]
    exact ⟨on, fun j lower => lowerOff ⟨j, lower.trans (leastKey s.keys).isLt⟩ lower⟩
  case stalledCycle =>
    have run := exec_ldVxK_of_idle (s := s.beginCycle) x idle
    obtain ⟨t, answer, pc, kept⟩ := step_ticks_executed about run about.1
    refine ⟨t, answer, pc.trans ?_, kept⟩
    rw [stall_pc, beginCycle_pc, stall_undoes_advance, toPc_self inside]

end Sys2Proof.Machine
end

section
/-! Settlements about the exceptions: which cycles fault, what a fault leaves, and that every cycle
answers (R172 to R177). -/

namespace Sys2Proof.Machine

/-! ### Every cycle answers (R177) -/

theorem step_answers (s : State) : ∃ t, step s = .next t := by
  by_cases running : s.Running
  · cases word : decode s.fetchWord with
    | undefinedWord => exact ⟨_, step_undefinedWord running word⟩
    | instr i =>
      obtain ⟨u, run⟩ := exec_answers i s.beginCycle
      exact ⟨_, step_of_exec ⟨running, word⟩ run⟩
  · exact ⟨s, step_halted running⟩

theorem cycle_answers (keys : Word) (rnd : Byte) (s : State) : ∃ t, cycle keys rnd s = .next t := by
  obtain ⟨_, run⟩ := step_answers (s.withInputs (⟨keys, rnd⟩ :: s.inputs))
  exact ⟨_, cycle_of_step_withInputs run⟩

/-- Settles O15: every instruction answers, and the frame of a cycle passes its answer on. -/
theorem everyCycleAnswersANextState : Obligations.EveryCycleAnswersANextState :=
  ⟨exec_answers, step_answers, cycle_answers⟩

/-! ### Fault codes (R30, R172) -/

section
variable {f : FaultCode}

theorem FaultCode.code_eq_one_iff : f.code = 1 ↔ f = .stackOverflow := by cases f <;> decide

theorem FaultCode.code_eq_two_iff : f.code = 2 ↔ f = .stackUnderflow := by cases f <;> decide

theorem FaultCode.code_ne_zero (faulted : f ≠ .running) : f.code ≠ 0 := by
  cases f with
  | running => contradiction
  | stackOverflow | stackUnderflow => decide

theorem FaultCode.code_ne_three : f.code ≠ 3 := by cases f <;> decide

end

/-! ### Which cycles fault (R170 to R173) -/

section
variable {s t : State} {i : Instr}

/-- An instruction goes on running, or is one of the two that raise a fault. -/
theorem Effect.fault_cases (effect : Effect s i t) (running : s.Running) :
    t.Running ∨
    (t.fault = .stackOverflow ∧ (∃ nnn, i = .call nnn) ∧ s.sp = 16) ∨
    (t.fault = .stackUnderflow ∧ i = .ret ∧ s.sp = 0) := by
  cases effect with
  | overflow full => exact .inr (.inl ⟨rfl, ⟨_, rfl⟩, Fin.ext full⟩)
  | underflow empty => exact .inr (.inr ⟨rfl, rfl, Fin.ext empty⟩)
  | _ => exact .inl running

/-- A cycle of a running core goes on running, or is one of the two that fault. -/
theorem step_fault_cases (running : s.Running) (h : step s = .next t) :
    t.Running ∨
    (t.fault = .stackOverflow ∧ (∃ nnn, decode s.fetchWord = .instr (.call nnn)) ∧ s.sp = 16) ∨
    (t.fault = .stackUnderflow ∧ decode s.fetchWord = .instr .ret ∧ s.sp = 0) := by
  obtain ⟨-, rfl⟩ | ⟨i, u, word, run, ⟨ok, rfl⟩ | ⟨faulted, rfl⟩⟩ := step_cases running h
  · exact .inl running
  · exact .inl ok
  · obtain ok | ⟨fault, ⟨nnn, rfl⟩, full⟩ | ⟨fault, rfl, empty⟩ :=
      (exec_effect run).fault_cases running
    · exact absurd ok faulted
    · exact .inr (.inl ⟨fault, ⟨nnn, word⟩, full⟩)
    · exact .inr (.inr ⟨fault, word, empty⟩)

theorem step_overflows_iff (running : s.Running) (h : step s = .next t) :
    t.fault = .stackOverflow ↔
      (∃ nnn, decode s.fetchWord = .instr (.call nnn)) ∧ s.sp = 16 := by
  constructor
  · intro fault
    simpa [State.Running, fault] using step_fault_cases running h
  · rintro ⟨⟨nnn, word⟩, full⟩
    obtain ⟨-, -, overflows⟩ := callPushesTheReturnAddress
    cases h.symm.trans (overflows nnn s ⟨running, word⟩ full)
    rfl

theorem step_underflows_iff (running : s.Running) (h : step s = .next t) :
    t.fault = .stackUnderflow ↔ decode s.fetchWord = .instr .ret ∧ s.sp = 0 := by
  constructor
  · intro fault
    simpa [State.Running, fault] using step_fault_cases running h
  · rintro ⟨word, empty⟩
    obtain ⟨-, -, underflows⟩ := retPopsTheReturnAddress
    cases h.symm.trans (underflows s ⟨running, word⟩ empty)
    rfl

/-- A cycle that faults changes `fault` alone (R173). -/
theorem step_precise (running : s.Running) (h : step s = .next t) (halted : t.Halted) :
    t = { s with fault := t.fault } := by
  obtain ⟨-, rfl⟩ | ⟨_, _, -, -, ⟨ok, rfl⟩ | ⟨-, rfl⟩⟩ := step_cases running h
  · exact absurd running halted
  · exact absurd ok halted
  · rfl

end

/-- Settles O14: the two effects that raise a fault, and the fault path of the cycle. -/
theorem onlyCallAndRetFaultPrecisely : Obligations.OnlyCallAndRetFaultPrecisely :=
  fun _ _ running h =>
    ⟨FaultCode.code_eq_one_iff.trans (step_overflows_iff running h),
      FaultCode.code_eq_two_iff.trans (step_underflows_iff running h), FaultCode.code_ne_three,
      step_precise running h⟩

/-! ### The halted core (R174) -/

theorem run_halted {t : State} (halted : t.Halted) (k : Nat) : core.run k t = .next t := by
  induction k with
  | zero => rfl
  | succ k ih => exact (run_succ k (step_halted halted)).trans ih

/-- Settles O13: a halted core runs in place, and the fault that halted it was precise. -/
theorem haltedForEver : Obligations.HaltedForEver := by
  intro s t k running h halted
  have stays := run_halted halted k
  exact ⟨stays, (run_succ k h).trans stays,
    congrArg State.hostView (step_precise running h halted), FaultCode.code_ne_zero halted⟩

end Sys2Proof.Machine
end

section
/-! Settlements about cycles that leave `pc` in place: the idle loop and the key wait (R163, R197,
R204). -/

namespace Sys2Proof.Machine

/-! ### A cycle that leaves `pc` in place -/

/-- The end of a cycle whose instruction did nothing but bring `pc` back to its own address. -/
def State.standstill (s : State) : State := State.completeCycle { s with ir := s.fetchWord }

section
variable {s : State} {i : Instr}

theorem standstill_dt_toNat (s : State) : s.standstill.dt.toNat = s.dt.toNat - 1 := tick_toNat _

theorem standstill_st_toNat (s : State) : s.standstill.st.toNat = s.st.toNat - 1 := tick_toNat _

/-- A cycle whose instruction writes `pc` alone, with the address the cycle began at. -/
theorem step_of_exec_setPc_back {n : Nat} (about : s.About i)
    (run : exec i s.beginCycle = .next (s.beginCycle.setPc n)) (back : toPc n = s.pc) :
    step s = .next s.standstill := by
  have same : s.beginCycle.setPc n = { s with ir := s.fetchWord } := by
    rw [State.setPc, back]
    rfl
  rw [step_of_exec_running about run about.1, same, State.standstill]

end

/-! ### The idle loop (R197) -/

/-- A word from 0x1000 up to 0x1FFF is a jump to its low twelve bits. -/
theorem decode_of_toNat_eq_0x1000_add {w : Word} {a : Nat} (inside : a < 4096)
    (word : w.toNat = 0x1000 + a) : decode w = .instr (.jp (nnnField w)) := by
  have sel : selField w = 1#4 := by
    apply BitVec.eq_of_toNat_eq
    rw [selField_toNat, word, BitVec.toNat_ofNat]
    omega
  have ⟨jumps, _⟩ := jpSetsPc
  exact jumps w ((and_F000_eq_iff rfl).mpr sel)

theorem step_ended {s : State} (inside : s.pc.toNat < 4096) (ended : s.Ended) :
    step s = .next s.standstill := by
  obtain ⟨word, running⟩ := ended
  have own : (nnnField s.fetchWord).toNat = s.pc.toNat := by
    rw [nnnField_toNat, word]
    omega
  have about : s.About (.jp (nnnField s.fetchWord)) :=
    ⟨running, decode_of_toNat_eq_0x1000_add inside word⟩
  exact step_of_exec_setPc_back about rfl (by rw [own, toPc_self inside])

/-- Settles O33: the cycle is a standstill, which keeps the word at `pc` and so the end of the
run. -/
theorem idleLoopStaysEnded : Obligations.IdleLoopStaysEnded := by
  intro s ⟨inside, _⟩ ended
  exact ⟨s.standstill, step_ended inside ended, ended, rfl, rfl, fun _ => rfl, rfl, rfl, rfl, rfl,
    rfl, standstill_dt_toNat s, standstill_st_toNat s⟩

/-! ### The key wait (R163, R204) -/

/-- A run goes on from where its first cycles came to. -/
theorem run_add {s t : State} {j : Nat} (k : Nat) (h : core.run j s = .next t) :
    core.run (j + k) s = core.run k t := by
  induction j generalizing s with
  | zero =>
    cases h
    rw [Nat.zero_add]
  | succ j ih =>
    obtain ⟨u, first⟩ := step_answers s
    rw [run_succ j first] at h
    rw [Nat.add_right_comm, run_succ (j + k) first, ih h]

section
variable {s : State} {x : Reg}

theorem keys_of_inputs_cons {i : Inputs} {later : List Inputs} (presented : s.inputs = i :: later) :
    s.keys = i.keys := by
  rw [State.keys, presented]

/-- The stalled cycle of the key wait. -/
theorem step_keyWait_idle (inside : s.pc.toNat < 4096) (about : s.About (.ldVxK x))
    (idle : s.keys = 0) : step s = .next s.standstill := by
  have back : toPc (s.beginCycle.pc - 2).toNat = s.pc := by
    rw [beginCycle_pc, stall_undoes_advance, toPc_self inside]
  exact step_of_exec_setPc_back about (exec_ldVxK_of_idle (s := s.beginCycle) x idle) back

/-- The last cycle of the key wait. -/
theorem step_keyWait_pressed (about : s.About (.ldVxK x)) (pressed : s.keys ≠ 0) :
    ∃ u, step s = .next u ∧ u.pc.toNat = (s.pc.toNat + 2) % 4096 ∧
      s.keys.getLsbD (u.reg x).toNat = true ∧
      (∀ j < (u.reg x).toNat, s.keys.getLsbD j = false) ∧
      (∀ r, r ≠ x → u.reg r = s.reg r) ∧ u.dt.toNat = s.dt.toNat - 1 := by
  obtain ⟨-, onOneState, -⟩ := keyWaitStallsOrTakesTheLowestKey
  obtain ⟨t, run, ⟨others, pc, -, -, -, dt, -, -, -, -, fault, -⟩, on, lowerOff⟩ :=
    (onOneState x s.beginCycle).2 pressed
  obtain ⟨u, cycle, pc', regs, delay, -⟩ := step_ticks_executed about run (fault.trans about.1)
  refine ⟨u, cycle, ?_, ?_, ?_, fun r other => (regs r).trans (others r other), dt ▸ delay⟩
  · rw [pc', pc, beginCycle_pc, toPc_toNat]
  · rw [regs x]
    exact on
  · rw [regs x]
    exact lowerOff

/-- Samples of zero leave the key wait standing, while the timers count down. -/
theorem run_keyWait_idle {rest : List Inputs} (idle : List Inputs) (inside : s.pc.toNat < 4096)
    (about : s.About (.ldVxK x)) (zero : ∀ i ∈ idle, i.keys = 0)
    (presented : s.inputs = idle ++ rest) :
    ∃ t, core.run idle.length s = .next t ∧ t.pc = s.pc ∧ KeepsRegs s t ∧ t.About (.ldVxK x) ∧
      t.dt.toNat = s.dt.toNat - idle.length ∧ t.st.toNat = s.st.toNat - idle.length ∧
      t.inputs = rest := by
  induction idle generalizing s with
  | nil => exact ⟨s, rfl, rfl, fun _ => rfl, about, rfl, rfl, presented⟩
  | cons i idle ih =>
    obtain ⟨noKey, zero'⟩ := List.forall_mem_cons.mp zero
    have first : step s = .next s.standstill :=
      step_keyWait_idle inside about ((keys_of_inputs_cons presented).trans noKey)
    have presented' : s.standstill.inputs = idle ++ rest := congrArg List.tail presented
    obtain ⟨t, run, pc, regs, about', delay, sound, left⟩ :=
      ih (s := s.standstill) inside about zero' presented'
    rw [standstill_dt_toNat] at delay
    rw [standstill_st_toNat] at sound
    refine ⟨t, (run_succ _ first).trans run, pc, regs, about', ?_, ?_, left⟩
    · rw [delay, List.length_cons, Nat.sub_sub, Nat.add_comm]
    · rw [sound, List.length_cons, Nat.sub_sub, Nat.add_comm]

end

/-- Settles O54: the standing wait through the samples of zero, then the cycle that takes the key. -/
theorem keyWaitEndsWithTheFirstKey : Obligations.KeyWaitEndsWithTheFirstKey := by
  rintro _ x s idle keys rnd later ⟨inside, -⟩ about rfl zero pressed presented
  obtain ⟨t, run, pc, regs, about', delay, sound, left⟩ :=
    run_keyWait_idle idle inside about zero presented
  have sample : t.keys = keys := keys_of_inputs_cons left
  obtain ⟨u, last, pc', on, lowerOff, others, delay'⟩ :=
    step_keyWait_pressed about' (sample ▸ pressed)
  rw [pc] at pc'
  rw [sample] at on lowerOff
  rw [delay, Nat.sub_sub] at delay'
  have run' : core.run (idle.length + 1) s = .next u :=
    (run_add 1 run).trans (run_succ 0 last)
  exact ⟨⟨t, run, pc, regs, about', delay, sound⟩, u, run', pc', on, lowerOff,
    fun r other => (others r other).trans (regs r), delay'⟩

end Sys2Proof.Machine
end
